-- ==== Sys2Proof/Word.lean ====
section
/-! DEFINITION. The bit-vector widths of the core (spec R8, R10): control byte, command word, operand field. -/

namespace Sys2Proof

/-- R8, R10: a control byte or a wire byte; bit 7 is the most significant. -/
abbrev Byte := BitVec 8

/-- R41: one command word, `OP[39:32] A[31:16] B[15:0]`. -/
abbrev CmdWord := BitVec 40

/-- R41: one 16-bit operand field of a command word. -/
abbrev Half := BitVec 16

/-- R8, R16: a 3-bit chip address. -/
abbrev ChipAddr := BitVec 3

end Sys2Proof
end

