-- ==== Sys2Proof/Syntax.lean ====
section
/-! DEFINITION. The thirteen commands of spec R43, one constructor per row of the opcode table, and the
reasons (R44) for which a 40-bit word is none of them. -/

namespace Sys2Proof

/-- A command with its operands assembled (R42): numeric operands are integers (the port delivers
`sext_16` of a field), boolean operands are bit 0 of a field. -/
inductive Instr where
  /-- R70: both channels' volume, in 0.25 dB units. -/
  | setVol (l r : Int)
  /-- R71: left volume. -/
  | setVolL (v : Int)
  /-- R72: right volume. -/
  | setVolR (v : Int)
  /-- R73: both channels' attenuation, in 0.5 dB units, negative is more attenuation. -/
  | setAtt (l r : Int)
  /-- R74: left attenuation. -/
  | setAttL (v : Int)
  /-- R75: right attenuation. -/
  | setAttR (v : Int)
  /-- R76: both channels' gain, in 0.5 dB units. -/
  | setGain (l r : Int)
  /-- R77: left gain. -/
  | setGainL (g : Int)
  /-- R78: right gain. -/
  | setGainR (g : Int)
  /-- R79: mute left and/or right. -/
  | mute (ml mr : Bool)
  /-- R63: zero-crossing enable. -/
  | setZc (enabled : Bool)
  /-- R64: attenuation link. -/
  | setAttLink (enabled : Bool)
  /-- R65: gain link. -/
  | setGainLink (enabled : Bool)
deriving DecidableEq, Repr

/-- Why a word is reserved: the three clauses of R44. -/
inductive Reserved where
  /-- R44 (a): the opcode is not one of the thirteen. -/
  | unassignedOpcode
  /-- R44 (b): a field the table marks "must be 0" is not zero. -/
  | fieldNotZero
  /-- R44 (c): bits 15..1 of a boolean field are not zero. -/
  | flagBitsNotZero
deriving DecidableEq, Repr

/-- The seven pseudo-instructions of R46. -/
inductive Pseudo where
  | setVolB (v : Int)
  | setAttB (v : Int)
  | setGainB (g : Int)
  | muteL
  | muteR
  | muteAll
  | nop
deriving DecidableEq, Repr

end Sys2Proof
end

