-- ==== Sys2Proof/WellFormed.lean ====
section
/-! DEFINITION. Which terms of `Instr` a command word can carry: every numeric operand fits the 16-bit
two's-complement field (spec R42, R45). Booleans have no invalid values (R61). -/

namespace Sys2Proof

/-- R42: "each in −32768..32767". -/
abbrev OperandFits (v : Int) : Prop := -32768 ≤ v ∧ v ≤ 32767

/-- The numeric operands of a command. -/
def Instr.operands : Instr → List Int
  | .setVol l r => [l, r]
  | .setVolL v => [v]
  | .setVolR v => [v]
  | .setAtt l r => [l, r]
  | .setAttL v => [v]
  | .setAttR v => [v]
  | .setGain l r => [l, r]
  | .setGainL g => [g]
  | .setGainR g => [g]
  | .mute _ _ => []
  | .setZc _ => []
  | .setAttLink _ => []
  | .setGainLink _ => []

/-- A command that some 40-bit word encodes. -/
abbrev Instr.WellFormed (i : Instr) : Prop := ∀ v ∈ i.operands, OperandFits v

end Sys2Proof
end

