-- ==== Sys2Proof/Decode.lean ====
section
/-! DEFINITION. The command word (spec R41 to R44): the decoder, total on all 40-bit words, and after it the
encoder and the match/mask table, each written from the opcode map R43. -/

namespace Sys2Proof

/-- R41: the opcode field, bits 39..32. -/
def opField (w : CmdWord) : BitVec 8 := w.extractLsb' 32 8

/-- R41: operand field A, bits 31..16. -/
def aField (w : CmdWord) : Half := w.extractLsb' 16 16

/-- R41: operand field B, bits 15..0. -/
def bField (w : CmdWord) : Half := w.extractLsb' 0 16

/-- R10, R42: `sext_16`, the field read as two's complement. -/
def sext16 (f : Half) : Int := f.toInt

/-- R42: a boolean operand is bit 0 of its field. -/
def flagOf (f : Half) : Bool := f.getLsbD 0

/-- R44 (c): bits 15..1 of a boolean field are zero. -/
def flagClean (f : Half) : Bool := f.extractLsb' 1 15 == 0#15

/-- The two-operand numeric form: no must-be-zero field. -/
def decodeTwo (k : Int → Int → Instr) (a b : Half) : Except Reserved Instr :=
  .ok (k (sext16 a) (sext16 b))

/-- The one-operand numeric form: B must be 0. -/
def decodeOne (k : Int → Instr) (a b : Half) : Except Reserved Instr :=
  if b = 0#16 then .ok (k (sext16 a)) else .error .fieldNotZero

/-- The one-flag form: B must be 0 and A[15:1] must be 0. -/
def decodeFlag (k : Bool → Instr) (a b : Half) : Except Reserved Instr :=
  if b = 0#16 then
    if flagClean a then .ok (k (flagOf a)) else .error .flagBitsNotZero
  else .error .fieldNotZero

/-- The two-flag form: A[15:1] and B[15:1] must be 0. -/
def decodeFlags (k : Bool → Bool → Instr) (a b : Half) : Except Reserved Instr :=
  if flagClean a && flagClean b then .ok (k (flagOf a) (flagOf b)) else .error .flagBitsNotZero

/-- R43 on the three fields of a word. -/
def decodeFields (op : BitVec 8) (a b : Half) : Except Reserved Instr :=
  if op = 0x10#8 then decodeTwo .setVol a b
  else if op = 0x11#8 then decodeOne .setVolL a b
  else if op = 0x12#8 then decodeOne .setVolR a b
  else if op = 0x20#8 then decodeTwo .setAtt a b
  else if op = 0x21#8 then decodeOne .setAttL a b
  else if op = 0x22#8 then decodeOne .setAttR a b
  else if op = 0x30#8 then decodeTwo .setGain a b
  else if op = 0x31#8 then decodeOne .setGainL a b
  else if op = 0x32#8 then decodeOne .setGainR a b
  else if op = 0x40#8 then decodeFlags .mute a b
  else if op = 0x50#8 then decodeFlag .setZc a b
  else if op = 0x51#8 then decodeFlag .setAttLink a b
  else if op = 0x52#8 then decodeFlag .setGainLink a b
  else .error .unassignedOpcode

/-- R44: every 40-bit word is one of the thirteen commands or reserved, by name. -/
def decode (w : CmdWord) : Except Reserved Instr :=
  decodeFields (opField w) (aField w) (bField w)

/-- R41: the word with the three fields `op`, `a`, `b`. -/
def assembleWord (op : BitVec 8) (a b : Half) : CmdWord := op ++ a ++ b

/-- R42: the field of a numeric operand. -/
def numField (v : Int) : Half := BitVec.ofInt 16 v

/-- R42: the field of a boolean operand, 1 meaning true. -/
def flagField (f : Bool) : Half := if f then 1#16 else 0#16

/-- R43: the opcode of a command. -/
def opcodeOf : Instr → BitVec 8
  | .setVol _ _ => 0x10#8
  | .setVolL _ => 0x11#8
  | .setVolR _ => 0x12#8
  | .setAtt _ _ => 0x20#8
  | .setAttL _ => 0x21#8
  | .setAttR _ => 0x22#8
  | .setGain _ _ => 0x30#8
  | .setGainL _ => 0x31#8
  | .setGainR _ => 0x32#8
  | .mute _ _ => 0x40#8
  | .setZc _ => 0x50#8
  | .setAttLink _ => 0x51#8
  | .setGainLink _ => 0x52#8

/-- R41 to R43: the word of a well-formed command; single-operand forms have B = 0 (R45). -/
def encode : Instr → CmdWord
  | .setVol l r => assembleWord 0x10#8 (numField l) (numField r)
  | .setVolL v => assembleWord 0x11#8 (numField v) 0#16
  | .setVolR v => assembleWord 0x12#8 (numField v) 0#16
  | .setAtt l r => assembleWord 0x20#8 (numField l) (numField r)
  | .setAttL v => assembleWord 0x21#8 (numField v) 0#16
  | .setAttR v => assembleWord 0x22#8 (numField v) 0#16
  | .setGain l r => assembleWord 0x30#8 (numField l) (numField r)
  | .setGainL g => assembleWord 0x31#8 (numField g) 0#16
  | .setGainR g => assembleWord 0x32#8 (numField g) 0#16
  | .mute ml mr => assembleWord 0x40#8 (flagField ml) (flagField mr)
  | .setZc e => assembleWord 0x50#8 (flagField e) 0#16
  | .setAttLink e => assembleWord 0x51#8 (flagField e) 0#16
  | .setGainLink e => assembleWord 0x52#8 (flagField e) 0#16

/-- The rows of the opcode table in its order, each as (match, mask) (R43, R44). -/
def opcodeRows : List (CmdWord × CmdWord) :=
  [(0x1000000000#40, 0xFF00000000#40), (0x1100000000#40, 0xFF0000FFFF#40), (0x1200000000#40, 0xFF0000FFFF#40)]
  ++ [(0x2000000000#40, 0xFF00000000#40), (0x2100000000#40, 0xFF0000FFFF#40), (0x2200000000#40, 0xFF0000FFFF#40)]
  ++ [(0x3000000000#40, 0xFF00000000#40), (0x3100000000#40, 0xFF0000FFFF#40), (0x3200000000#40, 0xFF0000FFFF#40)]
  ++ [(0x4000000000#40, 0xFFFFFEFFFE#40), (0x5000000000#40, 0xFFFFFEFFFF#40)]
  ++ [(0x5100000000#40, 0xFFFFFEFFFF#40), (0x5200000000#40, 0xFFFFFEFFFF#40)]

/-- Does a word match a row of the table? -/
def rowMatches (w : CmdWord) (row : CmdWord × CmdWord) : Bool := w &&& row.2 == row.1

/-- The number of a command's row in `opcodeRows`. -/
def rowIndex : Instr → Nat
  | .setVol _ _ => 0
  | .setVolL _ => 1
  | .setVolR _ => 2
  | .setAtt _ _ => 3
  | .setAttL _ => 4
  | .setAttR _ => 5
  | .setGain _ _ => 6
  | .setGainL _ => 7
  | .setGainR _ => 8
  | .mute _ _ => 9
  | .setZc _ => 10
  | .setAttLink _ => 11
  | .setGainLink _ => 12

/-- The command word a table row's bits stand for: one 40-bit word, bit 0 its least significant bit; bits
above `nbits` are 0. -/
def tableWord (nbits w : Nat) : CmdWord := BitVec.ofNat 40 (w % 2 ^ nbits)

/-- The command the decoder reads from the bits of an opcode-table row. -/
def decodeTableWord (nbits w : Nat) : Option Instr :=
  match decode (tableWord nbits w) with
  | .ok i => some i
  | .error _ => none

end Sys2Proof
end

