-- ==== Sys2Proof/Config.lean ====
section
/-! DEFINITION. The open parameters of spec R9. The transport configuration and `CS_SHARED` have no value in
the spec, so they are opaque constants: nothing can evaluate them, and what is proved holds for every value.
`N_INSTANCES` is the length of `State.insts`, which every statement leaves arbitrary and no step changes. -/

namespace Sys2Proof

/-- R32: the order of the bits of a byte on the wire, the transport's business. -/
inductive BitOrder where
  | msbFirst
  | lsbFirst
deriving DecidableEq, Repr, Inhabited

/-- R83: the transport configuration `(BUS_CLOCK_HZ, BUS_BIT_ORDER, BUS_CLOCK_MODE)`, "applied once per
transaction". -/
structure BusConfig where
  clockHz : Nat
  bitOrder : BitOrder
  clockMode : Nat
deriving DecidableEq, Repr, Inhabited

/-- R9, D19: `BUS_CLOCK_HZ`, OPEN (log 1). -/
opaque Config.busClockHz : Nat

/-- R9, D19: `BUS_BIT_ORDER`, OPEN (log 1). -/
opaque Config.busBitOrder : BitOrder

/-- R9, D19: `BUS_CLOCK_MODE`, OPEN (log 1). -/
opaque Config.busClockMode : Nat

/-- R9, D20: `CS_SHARED`, whether the core instances drive one select line; OPEN (log 1). -/
opaque Config.csShared : Bool

/-- D19: constant for a run and carried in every `Acquire` event. -/
def Config.bus : BusConfig :=
  { clockHz := Config.busClockHz, bitOrder := Config.busBitOrder, clockMode := Config.busClockMode }

end Sys2Proof
end

