-- ==== Sys2Proof/Machine/State.lean ====
section
/-! DEFINITION. The state of a system of core instances on one bus (spec R7, R16, R27, R106): each core
instance's own state, the bus and its recorded events, and the agents' inputs as plain data. -/

namespace Sys2Proof.Machine

/-- R29: the five assigned registers of the target register space. -/
inductive RegSel where
  | attL
  | gainL
  | attR
  | gainR
  | state
deriving DecidableEq, Repr

/-- R49: one two-byte frame, data byte first and address byte second. -/
structure Frame where
  data : Byte
  addr : Byte
deriving DecidableEq, Repr

/-- R23: the framer's position within the head frame. -/
inductive Phase where
  | idle
  | acquired
  | selected
  | sentData
  | sentAddr
  | deselected
deriving DecidableEq, Repr

/-- R16: "Each core instance holds exactly this state". -/
structure CoreInst where
  /-- chip address, bits [2:0] of every address byte (R21) -/
  chipAddr : ChipAddr
  /-- zeroCrossingEnabled (R17) -/
  zc : Bool
  /-- attenuationLinked (R18) -/
  attLink : Bool
  /-- gainLinked (R19) -/
  gainLink : Bool
  /-- frames of the command in progress not yet completed, head first (R16, R81) -/
  pending : List Frame
  /-- framer position (R23) -/
  phase : Phase
  /-- the select line's level: true is 1, deasserted (R16, R92) -/
  csN : Bool
  /-- the core instance has been constructed (R16, R107) -/
  live : Bool
deriving DecidableEq, Repr

/-- R83 to R89: the wire events; the number is the core instance's index. -/
inductive BusEvent where
  | acquire (i : Nat) (cfg : BusConfig)
  | csLow (i : Nat)
  | byte (i : Nat) (b : Byte)
  | csHigh (i : Nat)
  | release (i : Nat)
deriving DecidableEq, Repr

/-- R122: what the host presents to a core instance: the reset input with its configuration integer, or one
40-bit word on the command port. -/
inductive Request where
  | reset (cfgChipAddr : Int)
  | command (w : CmdWord)
deriving DecidableEq, Repr

/-- One entry of the host's list: a request and the core instance it is presented to. -/
structure HostItem where
  target : Nat
  request : Request
deriving DecidableEq, Repr

/-- R7: the agents, as entries of the schedule: which of them moves next. -/
inductive Agent where
  /-- the host presents the next entry of its list -/
  | host
  /-- the framer of core instance `i` takes its next step (R83, R84, R87, R88) -/
  | framer (i : Nat)
  /-- the transport takes the byte core instance `i` offers (R85, R86, R90) -/
  | transport (i : Nat)
deriving DecidableEq, Repr

/-- Why the machine stops. The core raises no exception (R96), so this is R97's outcome (3) only. -/
inductive Fault where
  /-- R90, R97 (3), R100: raised by `step` when no agent moves any more while a core instance offers a byte
  that the transport has not taken. Safe: no state follows, as in the spec ("The model has no step that
  leaves this state"). -/
  | stuckOnTransport
deriving DecidableEq, Repr

/-- R97 (2): what the model gives no meaning to. -/
inductive Refusal where
  /-- Raised by `exec` for a command whose meaning is not written yet, by its mnemonic (none is left). Safe. -/
  | notModelled (mnemonic : String)
  /-- R98: raised by every command presented to a core instance that is not live. Safe. -/
  | notConstructed
  /-- R99: raised by a reserved word presented to a ready core instance. Safe. -/
  | reservedEncoding
  /-- R109: raised by a reset presented to a core instance that is mid-command. Safe. -/
  | resetWhileBusy
  /-- Raised by a request whose target index names no core instance of the system (log 7). Safe. -/
  | noSuchCore
deriving DecidableEq, Repr

/-- The whole system. `insts` is the spec's state (R16, one per core instance, R27); `owner` and `trace` are
the bus (R83, R91, R89); `pc` is the host's command index (R20); `host`, `turns` and `port` are the model's
form of the agents' inputs (log 2, 3, 4). -/
structure State where
  /-- the core instances, by index; the length is `N_INSTANCES` (R9) -/
  insts : List CoreInst
  /-- the core instance that owns the bus (R91) -/
  owner : Option Nat
  /-- the events on the bus, oldest first (R89) -/
  trace : List BusEvent
  /-- the number of commands accepted: the index of the next command in the host's command list (R20) -/
  pc : Nat
  /-- what the host has still to present, in order (R7, R20, R122) -/
  host : List HostItem
  /-- the core instance the host's current request is presented to -/
  port : Nat
  /-- which agent moves next, in order; empty when no agent moves any more -/
  turns : List Agent
deriving DecidableEq, Repr

/-- R107 with `cfg_chip_addr` = 0: one core instance just constructed, the bus free, nothing on it, and the
host yet to present its first command (R110). One core instance, the configuration 0, and the values of
`pc`, `host`, `port` and `turns` are DESIGN CHOICES (log 2, 3, 4, 5). -/
def State.reset : State :=
  { insts := [{ chipAddr := 0#3, zc := true, attLink := false, gainLink := false, pending := [],
                phase := .idle, csN := true, live := true }]
    owner := none
    trace := []
    pc := 0
    host := []
    port := 0
    turns := [] }

end Sys2Proof.Machine
end

