-- ==== Sys2Proof/Machine/Operands.lean ====
section
/-! DEFINITION. Arithmetic primitives (spec R11), the numeric encoder (R51 to R60) and the fixed parameters
it uses (R8), and the address byte (R49, R50). Operands reach it as integers already assembled by the
decoder (R42). -/

namespace Sys2Proof.Machine

/-- R11: `clamp(v, lo, hi) = min(max(v, lo), hi)`. -/
def clamp (v lo hi : Int) : Int := min (max v lo) hi

/-- R11: the quotient rounded toward zero (`90_conflicts.md` C1). -/
def tdiv (a b : Int) : Int := Int.tdiv a b

/-- R11: true iff `v mod 2 ≠ 0`. -/
def odd (v : Int) : Bool := v % 2 != 0

/-- R8: `ATT_MIN`. -/
def attMin : Int := -223

/-- R8: `ATT_BASE`. -/
def attBase : Nat := 0x10

/-- R8: `GAIN_MAX`. -/
def gainMax : Int := 63

/-- R8: `VOL_MIN`. -/
def volMin : Int := -446

/-- R57: the mute code, a constant no encoder function produces. -/
def muteCode : Byte := 0x00#8

/-- R53. -/
def encodeAttenuation (value : Int) : Byte :=
  BitVec.ofNat 8 (attBase + (clamp value attMin 0).natAbs)

/-- R54. -/
def encodeGain (value : Int) : Byte := BitVec.ofNat 8 (clamp value 0 gainMax).toNat

/-- R55: the constant `0b1000000`. -/
def encodeFineGain : Byte := 0x40#8

/-- R56: (attenuation byte, gain byte). -/
def encodeVolume (value : Int) : Byte × Byte :=
  let c := clamp value volMin 0
  (encodeAttenuation (tdiv (c - 1) 2), if odd c then encodeFineGain else encodeGain 0)

/-- R47, R52: the level of an attenuation byte that is not the mute code, in quarters of a dB. -/
def attLevel (b : Byte) : Int := -2 * ((b.toNat : Int) - 0x10)

/-- R48, R52: the level of a gain byte, in quarters of a dB: +1 for the fine-gain bit, else 2 for each coarse
step. -/
def gainLevel (b : Byte) : Int := if b = encodeFineGain then 1 else 2 * (b.toNat : Int)

/-- R29: the register-select codes. -/
def RegSel.code : RegSel → BitVec 4
  | .attL => 0b0000#4
  | .gainL => 0b0001#4
  | .attR => 0b0010#4
  | .gainR => 0b0011#4
  | .state => 0b0100#4

/-- R49: byte 2 of a frame, `{sel[3:0], 0b0, chipAddr[2:0]}`. -/
def addressByte (sel : RegSel) (chip : ChipAddr) : Byte := sel.code ++ 0#1 ++ chip

/-- R81: the frame `Transfer(sel, data)` builds. -/
def mkFrame (sel : RegSel) (data : Byte) (chip : ChipAddr) : Frame :=
  { data := data, addr := addressByte sel chip }

/-- R21: `cfg_chip_addr mod 8`, the low three bits of its two's-complement form. -/
def chipAddrOf (cfg : Int) : ChipAddr := BitVec.ofNat 3 (cfg % 8).toNat

end Sys2Proof.Machine
end

