-- ==== Sys2Proof/Machine/Flags.lean ====
section
/-! DEFINITION. The core has no flags and no condition codes (spec R15). Its one computed status value is the
state byte that packs the three control booleans (R22). -/

namespace Sys2Proof.Machine

/-- R11: `bit(c)`. -/
def bit (c : Bool) : Byte := if c then 1#8 else 0#8

/-- R22: bit 7 attenuationLinked, bit 6 gainLinked, bit 5 NOT zeroCrossingEnabled, bits 4..0 zero. -/
def packState (c : CoreInst) : Byte :=
  (bit c.attLink <<< 7) ||| (bit c.gainLink <<< 6) ||| (bit (!c.zc) <<< 5)

end Sys2Proof.Machine
end

