-- ==== Sys2Proof/Machine/Ops.lean ====
section
/-! DEFINITION. The operations the commands share: `Transfer` (spec R81), the write helpers with link
suppression (R67, R68), command acceptance (R25, R98, R102) and the reset input (R107, R109).
The core takes no exception and returns from none (R96, R103), so there is no such operation. -/

namespace Sys2Proof.Machine

/-- R81: `Transfer(sel, data)` appends one frame to the issuing core's pending list. -/
def CoreInst.transfer (c : CoreInst) (sel : RegSel) (data : Byte) : CoreInst :=
  { c with pending := c.pending ++ [mkFrame sel data c.chipAddr] }

/-- R68: `writeAttL(d)`; left writes are always emitted (R67). -/
def CoreInst.writeAttL (c : CoreInst) (d : Byte) : CoreInst := c.transfer .attL d

/-- R68: `writeGainL(d)`. -/
def CoreInst.writeGainL (c : CoreInst) (d : Byte) : CoreInst := c.transfer .gainL d

/-- R67, R68: `writeAttR(d)`, suppressed on the attenuation link alone. -/
def CoreInst.writeAttR (c : CoreInst) (d : Byte) : CoreInst :=
  if c.attLink then c else c.transfer .attR d

/-- R67, R68: `writeGainR(d)`, suppressed on the gain link alone. -/
def CoreInst.writeGainR (c : CoreInst) (d : Byte) : CoreInst :=
  if c.gainLink then c else c.transfer .gainR d

/-- R61: the state write of a setter, packed from the booleans as they stand now. -/
def CoreInst.writeState (c : CoreInst) : CoreInst := c.transfer .state (packState c)

/-- R25: the `cmd_ready` output. -/
def CoreInst.cmdReady (c : CoreInst) : Bool := c.live && c.phase == .idle && c.pending.isEmpty

/-- R109: a reset is admitted only while the core is not mid-command. -/
def CoreInst.resetAdmitted (c : CoreInst) : Bool := !c.live || (c.phase == .idle && c.pending.isEmpty)

/-- R107: every field after `reset(cfg_chip_addr)`. -/
def CoreInst.constructed (cfg : Int) : CoreInst :=
  { chipAddr := chipAddrOf cfg, zc := true, attLink := false, gainLink := false, pending := [],
    phase := .idle, csN := true, live := true }

/-- R16: a core before its first reset: `live` is false. The other values are DESIGN CHOICES (log 6): no
command reads them (R98) and the reset writes them all (R107). -/
def CoreInst.unbuilt : CoreInst :=
  { chipAddr := 0#3, zc := true, attLink := false, gainLink := false, pending := [],
    phase := .idle, csN := true, live := false }

/-- A system of `n` core instances before any reset, with the bus free and nothing presented. -/
def State.powerOn (n : Nat) : State :=
  { State.reset with insts := List.replicate n CoreInst.unbuilt }

/-- R98, R102, R25: the checks every command word meets, in their order. A core that is not live refuses; a
live core that is not ready leaves the word with the host, which holds it; else `k` runs on the core's
state. -/
def State.gate (s : State) (k : CoreInst → Host.Outcome State Fault Refusal) :
    Host.Outcome State Fault Refusal :=
  match s.insts[s.port]? with
  | none => .refused .noSuchCore
  | some c =>
    if c.live then
      if c.cmdReady then k c else .next s
    else .refused .notConstructed

/-- The state after the core at the port takes the command: the core becomes `c`, the word leaves the host's
list, and the command index advances (R20, R25). -/
def State.accepted (s : State) (c : CoreInst) : State :=
  { s with insts := s.insts.set s.port c, host := s.host.tail, pc := s.pc + 1 }

/-- R25: on acceptance the command's rule runs at once on the issuing core's state. -/
def State.accept (s : State) (rule : CoreInst → CoreInst) : Host.Outcome State Fault Refusal :=
  s.gate fun c => .next (s.accepted (rule c))

/-- R99: a reserved word that passes the earlier checks is refused. -/
def State.refuseReserved (s : State) : Host.Outcome State Fault Refusal :=
  s.gate fun _ => .refused .reservedEncoding

/-- R107 to R109: the reset input of the core at the port. It emits no frame and touches no bus; it is no
command, so the command index stays (R20). -/
def State.resetCore (s : State) (cfg : Int) : Host.Outcome State Fault Refusal :=
  match s.insts[s.port]? with
  | none => .refused .noSuchCore
  | some c =>
    if c.resetAdmitted then
      .next { s with insts := s.insts.set s.port (CoreInst.constructed cfg), host := s.host.tail }
    else .refused .resetWhileBusy

end Sys2Proof.Machine
end

