-- ==== Sys2Proof/Machine/Attenuation.lean ====
section
/-! DEFINITION. The attenuation commands (spec R73 to R75). -/

namespace Sys2Proof.Machine

/-- R73. -/
def execSetAtt (l r : Int) (s : State) : Host.Outcome State Fault Refusal :=
  s.accept fun c => (c.writeAttL (encodeAttenuation l)).writeAttR (encodeAttenuation r)

/-- R74. -/
def execSetAttL (v : Int) (s : State) : Host.Outcome State Fault Refusal :=
  s.accept fun c => c.writeAttL (encodeAttenuation v)

/-- R75. -/
def execSetAttR (v : Int) (s : State) : Host.Outcome State Fault Refusal :=
  s.accept fun c => c.writeAttR (encodeAttenuation v)

end Sys2Proof.Machine
end

