-- ==== Sys2Proof/Machine/DeviceState.lean ====
section
/-! DEFINITION. The state setters (spec R61 to R65): the field is written first, then the whole byte is packed
and sent. -/

namespace Sys2Proof.Machine

/-- R63. -/
def execSetZc (enabled : Bool) (s : State) : Host.Outcome State Fault Refusal :=
  s.accept fun c => CoreInst.writeState { c with zc := enabled }

/-- R64. -/
def execSetAttLink (enabled : Bool) (s : State) : Host.Outcome State Fault Refusal :=
  s.accept fun c => CoreInst.writeState { c with attLink := enabled }

/-- R65. -/
def execSetGainLink (enabled : Bool) (s : State) : Host.Outcome State Fault Refusal :=
  s.accept fun c => CoreInst.writeState { c with gainLink := enabled }

end Sys2Proof.Machine
end

