-- ==== Sys2Proof/Machine/Gain.lean ====
section
/-! DEFINITION. The gain commands (spec R76 to R78). -/

namespace Sys2Proof.Machine

/-- R76. -/
def execSetGain (l r : Int) (s : State) : Host.Outcome State Fault Refusal :=
  s.accept fun c => (c.writeGainL (encodeGain l)).writeGainR (encodeGain r)

/-- R77. -/
def execSetGainL (g : Int) (s : State) : Host.Outcome State Fault Refusal :=
  s.accept fun c => c.writeGainL (encodeGain g)

/-- R78. -/
def execSetGainR (g : Int) (s : State) : Host.Outcome State Fault Refusal :=
  s.accept fun c => c.writeGainR (encodeGain g)

end Sys2Proof.Machine
end

