-- ==== Sys2Proof/Machine/Mute.lean ====
section
/-! DEFINITION. The mute command (spec R79). -/

namespace Sys2Proof.Machine

/-- R79: left before right; the right write is suppressed while attenuation is linked. -/
def execMute (ml mr : Bool) (s : State) : Host.Outcome State Fault Refusal :=
  s.accept fun c =>
    let left := if ml then c.writeAttL muteCode else c
    if mr then left.writeAttR muteCode else left

end Sys2Proof.Machine
end

