-- ==== Sys2Proof/Machine/Volume.lean ====
section
/-! DEFINITION. The volume commands (spec R70 to R72). -/

namespace Sys2Proof.Machine

/-- R70. -/
def execSetVol (l r : Int) (s : State) : Host.Outcome State Fault Refusal :=
  s.accept fun c =>
    (((c.writeAttL (encodeVolume l).1).writeGainL (encodeVolume l).2).writeAttR
      (encodeVolume r).1).writeGainR (encodeVolume r).2

/-- R71: the link bits are not read. -/
def execSetVolL (v : Int) (s : State) : Host.Outcome State Fault Refusal :=
  s.accept fun c => (c.writeAttL (encodeVolume v).1).writeGainL (encodeVolume v).2

/-- R72. -/
def execSetVolR (v : Int) (s : State) : Host.Outcome State Fault Refusal :=
  s.accept fun c => (c.writeAttR (encodeVolume v).1).writeGainR (encodeVolume v).2

end Sys2Proof.Machine
end

