-- ==== Sys2Proof/Machine/Dispatch.lean ====
section
/-! DEFINITION. One arm per command of spec R43. -/

namespace Sys2Proof.Machine

def exec (i : Instr) (s : State) : Host.Outcome State Fault Refusal :=
  match i with
  | .setVol l r => Sys2Proof.Machine.execSetVol l r s
  | .setVolL v => Sys2Proof.Machine.execSetVolL v s
  | .setVolR v => Sys2Proof.Machine.execSetVolR v s
  | .setAtt l r => Sys2Proof.Machine.execSetAtt l r s
  | .setAttL v => Sys2Proof.Machine.execSetAttL v s
  | .setAttR v => Sys2Proof.Machine.execSetAttR v s
  | .setGain l r => Sys2Proof.Machine.execSetGain l r s
  | .setGainL g => Sys2Proof.Machine.execSetGainL g s
  | .setGainR g => Sys2Proof.Machine.execSetGainR g s
  | .mute ml mr => Sys2Proof.Machine.execMute ml mr s
  | .setZc enabled => Sys2Proof.Machine.execSetZc enabled s
  | .setAttLink enabled => Sys2Proof.Machine.execSetAttLink enabled s
  | .setGainLink enabled => Sys2Proof.Machine.execSetGainLink enabled s

end Sys2Proof.Machine
end

