-- ==== Sys2Proof/Machine/Framer.lean ====
section
/-! DEFINITION. The two-byte chip-select framer (spec R82 to R92): one transition per step of a transfer, each
`none` where the spec does not enable it, and the wire events of one frame (R89). -/

namespace Sys2Proof.Machine

/-- R92: the phases in which the select line is low. -/
def Phase.selecting : Phase → Bool
  | .selected => true
  | .sentData => true
  | .sentAddr => true
  | .idle => false
  | .acquired => false
  | .deselected => false

/-- How many of a frame's six events (R89) have happened in a phase. -/
def Phase.progress : Phase → Nat
  | .idle => 0
  | .acquired => 1
  | .selected => 2
  | .sentData => 3
  | .sentAddr => 4
  | .deselected => 5

/-- Core `i` becomes `c` and the event `e` goes on the bus. -/
def State.emit (s : State) (i : Nat) (c : CoreInst) (e : BusEvent) : State :=
  { s with insts := s.insts.set i c, trace := s.trace ++ [e] }

/-- R83: acquire, enabled when the core is idle with a frame to send and no core owns the bus. -/
def State.acquire (s : State) (i : Nat) (c : CoreInst) : Option State :=
  if c.phase = .idle ∧ c.pending ≠ [] ∧ s.owner = none then
    some { s.emit i { c with phase := .acquired } (.acquire i Config.bus) with owner := some i }
  else none

/-- R84: select. -/
def State.select (s : State) (i : Nat) (c : CoreInst) : Option State :=
  if c.phase = .acquired then some (s.emit i { c with phase := .selected, csN := false } (.csLow i)) else none

/-- R85: the transport takes byte 1 of the head frame. -/
def State.sendData (s : State) (i : Nat) (c : CoreInst) : Option State :=
  match c.pending with
  | [] => none
  | f :: _ =>
    if c.phase = .selected then some (s.emit i { c with phase := .sentData } (.byte i f.data)) else none

/-- R86: the transport takes byte 2 of the head frame. -/
def State.sendAddr (s : State) (i : Nat) (c : CoreInst) : Option State :=
  match c.pending with
  | [] => none
  | f :: _ =>
    if c.phase = .sentData then some (s.emit i { c with phase := .sentAddr } (.byte i f.addr)) else none

/-- R87: deselect. -/
def State.deselect (s : State) (i : Nat) (c : CoreInst) : Option State :=
  if c.phase = .sentAddr then some (s.emit i { c with phase := .deselected, csN := true } (.csHigh i)) else none

/-- R88: release; the head frame leaves the pending list and the bus is free. -/
def State.release (s : State) (i : Nat) (c : CoreInst) : Option State :=
  if c.phase = .deselected then
    some { s.emit i { c with phase := .idle, pending := c.pending.tail } (.release i) with owner := none }
  else none

/-- The framer's own transitions, by phase; in `selected` and `sentData` it waits for the transport (R90). -/
def State.framerStep (s : State) (i : Nat) (c : CoreInst) : Option State :=
  match c.phase with
  | .idle => s.acquire i c
  | .acquired => s.select i c
  | .selected => none
  | .sentData => none
  | .sentAddr => s.deselect i c
  | .deselected => s.release i c

/-- R90: the transport takes the byte the core offers. -/
def State.transportStep (s : State) (i : Nat) (c : CoreInst) : Option State :=
  match c.phase with
  | .selected => s.sendData i c
  | .sentData => s.sendAddr i c
  | .idle => none
  | .acquired => none
  | .sentAddr => none
  | .deselected => none

/-- A turn of core `i`'s framer or transport: its transition where one is enabled, else it waits and nothing
changes. -/
def State.turnOf (s : State) (i : Nat) (move : State → Nat → CoreInst → Option State) : State :=
  match s.insts[i]? with
  | none => s
  | some c => (move s i c).getD s

/-- R90, R100: some core offers a byte that the transport has not taken. -/
def State.offersByte (s : State) : Bool :=
  s.insts.any fun c => c.phase == .selected || c.phase == .sentData

/-- R89: the six wire events of the frame `f` of core `i`, in order. -/
def wire (i : Nat) (f : Frame) : List BusEvent :=
  [.acquire i Config.bus, .csLow i, .byte i f.data, .byte i f.addr, .csHigh i, .release i]

/-- R95: the frames completed on a trace, each with its core's index, read off as blocks of six events. -/
def framesOn : List BusEvent → List (Nat × Frame)
  | .acquire i _ :: .csLow _ :: .byte _ d :: .byte _ a :: .csHigh _ :: .release _ :: rest =>
    (i, { data := d, addr := a }) :: framesOn rest
  | _ => []

/-- R95: the atomic view: one step sends the whole head frame, enabled when no core is mid-frame. -/
def State.frameStep (s : State) (i : Nat) (c : CoreInst) : Option State :=
  match c.pending with
  | [] => none
  | f :: fs =>
    if c.phase = .idle ∧ s.owner = none then
      some { s with insts := s.insts.set i { c with pending := fs }, trace := s.trace ++ wire i f }
    else none

/-- R92, D20: the level of the select line that core `i` drives: its own output, or the shared line, low while
any core drives it low. -/
def State.selectLine (s : State) (i : Nat) : Bool :=
  if Config.csShared then s.insts.all (·.csN)
  else match s.insts[i]? with
    | none => true
    | some c => c.csN

/-- The turns that send one frame of core `i` (R82 to R88). -/
def frameTurns (i : Nat) : List Agent :=
  [.framer i, .framer i, .transport i, .transport i, .framer i, .framer i]

/-- R37: a host that waits for each command to complete: the host's turn, then turns for the at most four
frames (R80) of its command. -/
def commandTurns (i : Nat) : List Agent :=
  .host :: (frameTurns i ++ frameTurns i ++ frameTurns i ++ frameTurns i)

/-- The host's list `items` loaded, to be presented one at a time, each to completion (R37). -/
def State.withProgram (s : State) (items : List HostItem) : State :=
  { s with host := items, turns := items.flatMap fun it => commandTurns it.target }

end Sys2Proof.Machine
end

