-- ==== Sys2Proof/Machine/Agents.lean ====
section
/-! DEFINITION. The moves of the agents (spec R7): the host presenting a request (R122), a framer, the
transport; and what it means that no agent moves any more (R100). -/

namespace Sys2Proof.Machine

/-- R25, R98, R99: one word on the command port of the core at the port. -/
def State.command (s : State) (w : CmdWord) : Host.Outcome State Fault Refusal :=
  match decode w with
  | .ok i => exec i s
  | .error _ => s.refuseReserved

/-- R122: the host presents the next entry of its list; with nothing to present it does nothing. -/
def State.present (s : State) : Host.Outcome State Fault Refusal :=
  match s.host with
  | [] => .next s
  | it :: _ =>
    match it.request with
    | .reset cfg => { s with port := it.target }.resetCore cfg
    | .command w => { s with port := it.target }.command w

/-- One turn of one agent. -/
def State.fire (s : State) : Agent → Host.Outcome State Fault Refusal
  | .host => s.present
  | .framer i => .next (s.turnOf i State.framerStep)
  | .transport i => .next (s.turnOf i State.transportStep)

/-- No agent moves any more: a core that offers a byte is stuck for ever (R90, R100), and otherwise the system
stays as it is, waiting for the host (R110). -/
def State.noTurn (s : State) : Host.Outcome State Fault Refusal :=
  if s.offersByte then .fault .stuckOnTransport else .next s

/-- The item and the turn that make the host present `w` next, to the core at the port. -/
def State.presenting (s : State) (w : CmdWord) : State :=
  { s with host := { target := s.port, request := .command w } :: s.host, turns := .host :: s.turns }

end Sys2Proof.Machine
end

