-- ==== Sys2Proof/Machine/Step.lean ====
section
/-! DEFINITION. One step: the next agent of the schedule takes its turn. -/

namespace Sys2Proof.Machine

/-- The first entry of `turns` is used up and that agent moves. -/
def step (s : State) : Host.Outcome State Fault Refusal :=
  match s.turns with
  | [] => s.noTurn
  | a :: rest => { s with turns := rest }.fire a

/-- The core fetches nothing (R39, R110): a word reaches it when the host presents it. This puts the word of
a table row at the head of the host's list, for the core at the port, and gives the host the next turn. -/
def State.withFetchWord (s : State) (nbits w : Nat) : State := s.presenting (tableWord nbits w)

end Sys2Proof.Machine
end

