-- ==== Sys2Proof/Machine/Assembler.lean ====
section
/-! DEFINITION. The assembler text form (spec R45), the pseudo-instructions (R46) and the `.reset` directive
(R111), on lists of characters so that the kernel evaluates them. A line that is none of these assembles to
nothing (`none`). -/

namespace Sys2Proof.Machine

/-- R46: each expands to exactly one command. -/
def expandPseudo : Pseudo → Instr
  | .setVolB v => .setVol v v
  | .setAttB v => .setAtt v v
  | .setGainB g => .setGain g g
  | .muteL => .mute true false
  | .muteR => .mute false true
  | .muteAll => .mute true true
  | .nop => .mute false false

/-- The characters before a `;` comment. -/
def stripComment (cs : List Char) : List Char := cs.takeWhile (· != ';')

/-- Leading and trailing spaces removed. -/
def trimSpaces (cs : List Char) : List Char :=
  ((cs.dropWhile (· == ' ')).reverse.dropWhile (· == ' ')).reverse

/-- The pieces between commas, each trimmed. -/
def splitCommas : List Char → List Char → List (List Char)
  | acc, [] => [trimSpaces acc.reverse]
  | acc, c :: cs => if c == ',' then trimSpaces acc.reverse :: splitCommas [] cs else splitCommas (c :: acc) cs

/-- The value of a decimal digit. -/
def decDigit (c : Char) : Option Nat :=
  if 48 ≤ c.toNat ∧ c.toNat ≤ 57 then some (c.toNat - 48) else none

/-- The value of a hexadecimal digit. -/
def hexDigit (c : Char) : Option Nat :=
  if 48 ≤ c.toNat ∧ c.toNat ≤ 57 then some (c.toNat - 48)
  else if 65 ≤ c.toNat ∧ c.toNat ≤ 70 then some (c.toNat - 55)
  else if 97 ≤ c.toNat ∧ c.toNat ≤ 102 then some (c.toNat - 87)
  else none

/-- The digits of a number, most significant first, folded onto `acc`. -/
def readDigits (base : Nat) (digit : Char → Option Nat) : Nat → List Char → Option Nat
  | acc, [] => some acc
  | acc, c :: cs =>
    match digit c with
    | none => none
    | some d => readDigits base digit (acc * base + d) cs

/-- A number of at least one digit. -/
def readNat (base : Nat) (digit : Char → Option Nat) (cs : List Char) : Option Nat :=
  if cs.isEmpty then none else readDigits base digit 0 cs

/-- A signed decimal integer. -/
def readInt : List Char → Option Int
  | '-' :: cs => (readNat 10 decDigit cs).map fun n : Nat => -(n : Int)
  | cs => (readNat 10 decDigit cs).map fun n : Nat => (n : Int)

/-- R45: a numeric operand: a signed decimal integer in range, or `0x` and the 16-bit field itself. -/
def readOperand : List Char → Option Int
  | '0' :: 'x' :: cs =>
    match readNat 16 hexDigit cs with
    | some n => if n < 65536 then some (sext16 (BitVec.ofNat 16 n)) else none
    | none => none
  | cs =>
    match readInt cs with
    | some v => if -32768 ≤ v ∧ v ≤ 32767 then some v else none
    | none => none

/-- R45: a boolean operand, `0` or `1`. -/
def readFlag : List Char → Option Bool
  | ['0'] => some false
  | ['1'] => some true
  | _ => none

/-- The operands of one form. -/
def oneNum (k : Int → Instr) (ops : List (List Char)) : Option Instr :=
  match ops with
  | [x] => (readOperand x).map k
  | _ => none

/-- The operands of a two-operand numeric form. -/
def twoNum (k : Int → Int → Instr) (ops : List (List Char)) : Option Instr :=
  match ops with
  | [x, y] =>
    match readOperand x, readOperand y with
    | some a, some b => some (k a b)
    | _, _ => none
  | _ => none

/-- The operand of a one-flag form. -/
def oneFlag (k : Bool → Instr) (ops : List (List Char)) : Option Instr :=
  match ops with
  | [x] => (readFlag x).map k
  | _ => none

/-- The operands of a two-flag form. -/
def twoFlags (k : Bool → Bool → Instr) (ops : List (List Char)) : Option Instr :=
  match ops with
  | [x, y] =>
    match readFlag x, readFlag y with
    | some a, some b => some (k a b)
    | _, _ => none
  | _ => none

/-- A form without operands (a pseudo-instruction). -/
def noOperand (i : Instr) (ops : List (List Char)) : Option Instr :=
  match ops with
  | [[]] => some i
  | _ => none

/-- R43, R46: the mnemonics and what reads their operands. -/
def mnemonics : List (List Char × (List (List Char) → Option Instr)) :=
  [("SETVOL".toList, twoNum .setVol), ("SETVOL_L".toList, oneNum .setVolL),
   ("SETVOL_R".toList, oneNum .setVolR)]
  ++ [("SETATT".toList, twoNum .setAtt), ("SETATT_L".toList, oneNum .setAttL),
   ("SETATT_R".toList, oneNum .setAttR)]
  ++ [("SETGAIN".toList, twoNum .setGain), ("SETGAIN_L".toList, oneNum .setGainL),
   ("SETGAIN_R".toList, oneNum .setGainR)]
  ++ [("MUTE".toList, twoFlags .mute), ("SETZC".toList, oneFlag .setZc),
   ("SETATTLINK".toList, oneFlag .setAttLink), ("SETGAINLINK".toList, oneFlag .setGainLink)]
  ++ [("SETVOLB".toList, oneNum fun v => expandPseudo (.setVolB v)),
   ("SETATTB".toList, oneNum fun v => expandPseudo (.setAttB v)),
   ("SETGAINB".toList, oneNum fun g => expandPseudo (.setGainB g))]
  ++ [("MUTEL".toList, noOperand (expandPseudo .muteL)), ("MUTER".toList, noOperand (expandPseudo .muteR)),
   ("MUTEALL".toList, noOperand (expandPseudo .muteAll)), ("NOP".toList, noOperand (expandPseudo .nop))]

/-- What a mnemonic reads from its operands. -/
def readInstr (table : List (List Char × (List (List Char) → Option Instr))) (name : List Char)
    (ops : List (List Char)) : Option Instr :=
  match table with
  | [] => none
  | (n, rd) :: rest => if n = name then rd ops else readInstr rest name ops

/-- R45, R111: one line of text: nothing, one reset, or one command word. The outer `none` is text that is
no line of the form; the inner one is an empty or comment line. -/
def assembleLine (line : List Char) : Option (Option Request) :=
  let body := trimSpaces (stripComment line)
  let name := body.takeWhile (· != ' ')
  let rest := trimSpaces (body.dropWhile (· != ' '))
  if body.isEmpty then some none
  else if name = ".reset".toList then (readInt rest).map fun n => some (.reset n)
  else (readInstr mnemonics name (splitCommas [] rest)).map fun i => some (.command (encode i))

/-- A program: every line's request, in order, or nothing if a line does not assemble. -/
def assembleProgram : List (List Char) → Option (List Request)
  | [] => some []
  | l :: ls =>
    match assembleLine l, assembleProgram ls with
    | some (some r), some rs => some (r :: rs)
    | some none, some rs => some rs
    | _, _ => none

end Sys2Proof.Machine
end

