-- ==== Sys2Proof/Machine/Memory.lean ====
section
/-! DEFINITION. The target register space (spec R28, R29) as the core has written it. The core holds no copy of
a target register and reads none (R24, R30), so this is no field of `State`: it is a view computed from the
completed frames on the bus. A location is named by its address byte; one that no frame has written has no
value here, and reading it answers none (`93_implementation_defined.md`: any value; log 8). -/

namespace Sys2Proof.Machine

/-- Locations and their last written bytes, addresses strictly rising. -/
abbrev Memory := List Host.Cell

/-- The byte last written to a location, none if no frame has written it. -/
def Memory.read : Memory → Nat → Option Byte
  | [], _ => none
  | (k, b) :: rest, a => if k = a then some b else Memory.read rest a

/-- R31: one write of one whole register. -/
def Memory.write : Memory → Nat → Byte → Memory
  | [], a, b => [(a, b)]
  | (k, c) :: rest, a, b =>
    if a < k then (a, b) :: (k, c) :: rest
    else if a = k then (a, b) :: rest
    else (k, c) :: Memory.write rest a b

/-- Every address of the list is above `lo`, and they strictly rise. -/
def Memory.risesFrom (lo : Nat) : Memory → Bool
  | [] => true
  | (k, _) :: rest => decide (lo < k) && Memory.risesFrom k rest

/-- The canonical form: addresses strictly rising, so equal spaces are equal lists. -/
def Memory.wf : Memory → Bool
  | [] => true
  | (k, _) :: rest => Memory.risesFrom k rest

/-- R28: the address of a location, its address byte (R50). -/
def location (sel : RegSel) (chip : ChipAddr) : Nat := (addressByte sel chip).toNat

/-- One completed frame writes one location (R31). -/
def Memory.writeFrame (m : Memory) (f : Frame) : Memory := m.write f.addr.toNat f.data

/-- The space after the frames `fs`, oldest first (R36). -/
def Memory.afterFrames (m : Memory) (fs : List (Nat × Frame)) : Memory :=
  fs.foldl (fun acc p => acc.writeFrame p.2) m

/-- The target register space as the completed frames on the bus have left it. -/
def State.space (s : State) : Memory := Memory.afterFrames [] (framesOn s.trace)

end Sys2Proof.Machine
end

