-- ==== Sys2Proof/Safety.lean ====
section
/-! DEFINITION. What claims are stated in: the bytes a register may be sent (spec R22, R47, R48), the invariant
of the framer and the bus (R23, R80, R89, R91, R92), and when a run has completed and what it observes
(R123). -/

namespace Sys2Proof.Machine

/-- R22, R47, R48: the data bytes the core writes to a register. -/
def RegSel.Admits : RegSel → Byte → Prop
  | .attL, b => b = muteCode ∨ (0x10 ≤ b.toNat ∧ b.toNat ≤ 0xEF)
  | .attR, b => b = muteCode ∨ (0x10 ≤ b.toNat ∧ b.toNat ≤ 0xEF)
  | .gainL, b => b.toNat ≤ 0x3F ∨ b = 0x40#8
  | .gainR, b => b.toNat ≤ 0x3F ∨ b = 0x40#8
  | .state, b => b &&& 0x1F#8 = 0#8

/-- R49, R50: a frame the core at chip address `chip` may send. -/
def Frame.Legal (chip : ChipAddr) (f : Frame) : Prop :=
  ∃ sel : RegSel, f.addr = addressByte sel chip ∧ sel.Admits f.data

/-- The events of the frame in progress, if a core owns the bus: the first few of that frame's six (R89). -/
def State.inProgress (s : State) : List BusEvent :=
  match s.owner with
  | none => []
  | some i =>
    match s.insts[i]? with
    | none => []
    | some c =>
      match c.pending with
      | [] => []
      | f :: _ => (wire i f).take c.phase.progress

/-- What holds of one core instance in every reachable state. -/
structure CoreInst.Inv (c : CoreInst) : Prop where
  /-- R23, R92: the select line is low exactly in `selected`, `sentData` and `sentAddr`. -/
  csLevel : c.csN = !c.phase.selecting
  /-- R82: a core in mid-frame has the frame it is sending. -/
  inFlight : c.phase ≠ .idle → c.pending ≠ []
  /-- R98: a core that is not live has emitted nothing. -/
  notLive : c.live = false → c.pending = []
  /-- R80: "`st.pending` never holds more than 4". -/
  atMostFour : c.pending.length ≤ 4
  /-- R47 to R50: every pending frame is one the core may send. -/
  legal : ∀ f ∈ c.pending, f.Legal c.chipAddr

/-- What holds of the system in every reachable state. -/
structure State.Inv (s : State) : Prop where
  /-- every core instance's own invariant -/
  cores : ∀ c ∈ s.insts, c.Inv
  /-- R91: the bus owner is exactly the core that is in mid-frame. -/
  ownership : ∀ i c, s.insts[i]? = some c → (s.owner = some i ↔ c.phase ≠ .idle)
  /-- R91: only a core instance of the system owns the bus. -/
  ownerExists : ∀ i, s.owner = some i → i < s.insts.length
  /-- R34, R89: the bus carries whole frames, six consecutive events each, and then the start of at most
  one more. -/
  wholeFrames : s.trace = (framesOn s.trace).flatMap (fun p => wire p.1 p.2) ++ s.inProgress
  /-- R47 to R50: every frame sent was one that a core may send. -/
  sentLegal : ∀ p ∈ framesOn s.trace, ∃ chip, p.2.Legal chip

/-- R25: the core at the port is `c` and its `cmd_ready` output is true. -/
structure State.Ready (s : State) (c : CoreInst) : Prop where
  atPort : s.insts[s.port]? = some c
  live : c.live = true
  idle : c.phase = .idle
  empty : c.pending = []

/-- The frames core `i` has completed on the bus, in order (R36). -/
def State.sentBy (s : State) (i : Nat) : List Frame :=
  ((framesOn s.trace).filter fun p => p.1 == i).map (·.2)

/-- The frames core `i` has still to complete. -/
def State.pendingOf (s : State) (i : Nat) : List Frame :=
  match s.insts[i]? with
  | none => []
  | some c => c.pending

/-- `n` steps of the machine, as the host runs it (`Host.Core.run`), stopping at the first fault or refusal. -/
def State.run (s : State) (n : Nat) : Host.Outcome State Fault Refusal := Sys2Proof.core.run n s

/-- R123: a run in which commands were given to the cores `given` has completed in `s`: each of them is live,
idle and has nothing pending, and no core owns the bus. That no refusal was recorded is that the run
answers a next state (log 9). -/
def State.Completed (s : State) (given : List Nat) : Prop :=
  s.owner = none ∧
    ∀ i ∈ given, ∃ c, s.insts[i]? = some c ∧ c.live = true ∧ c.phase = .idle ∧ c.pending = []

/-- R95: the atomic view of a state: the frame in progress, if any, has not begun. -/
def State.atomicView (s : State) : State :=
  { s with
    insts := s.insts.map fun c => { c with phase := .idle, csN := true }
    owner := none
    trace := (framesOn s.trace).flatMap fun p => wire p.1 p.2 }

/-- R123: the control fields of a core. -/
structure Control where
  chipAddr : ChipAddr
  zc : Bool
  attLink : Bool
  gainLink : Bool
deriving DecidableEq, Repr

/-- The control fields of a core instance (R16, R123). -/
def CoreInst.control (c : CoreInst) : Control :=
  { chipAddr := c.chipAddr, zc := c.zc, attLink := c.attLink, gainLink := c.gainLink }

/-- R123: the observation of a run: the final control fields of every core and the events on the bus. -/
def State.observation (s : State) : List Control × List BusEvent :=
  (s.insts.map CoreInst.control, s.trace)

end Sys2Proof.Machine
end

