-- ==== Sys2Proof/Certificates/Slice0/Obligations.lean ====
section
/-! DEFINITION. The statements for the provers, with the few tables of the spec they are written against. -/

namespace Sys2Proof.Machine

/-- A two-operand numeric form (R42, R43): presented to the core at the port of `s`, every word with the opcode
runs that command on its two sign-extended fields. -/
def State.FormTwo (s : State) (op : BitVec 8) (k : Int → Int → Instr) : Prop :=
  ∀ w : CmdWord, opField w = op → s.command w = exec (k (aField w).toInt (bField w).toInt) s

/-- A one-operand numeric form: a word with B ≠ 0 is refused. -/
def State.FormOne (s : State) (op : BitVec 8) (k : Int → Instr) : Prop :=
  ∀ w : CmdWord, opField w = op →
    (bField w = 0#16 → s.command w = exec (k (aField w).toInt) s) ∧
    (bField w ≠ 0#16 → s.command w = .refused .reservedEncoding)

/-- A one-flag form: the flag is A[0]; a word with B ≠ 0 or A[15:1] ≠ 0 is refused. -/
def State.FormFlag (s : State) (op : BitVec 8) (k : Bool → Instr) : Prop :=
  ∀ w : CmdWord, opField w = op →
    (bField w = 0#16 → (aField w).toNat < 2 → s.command w = exec (k ((aField w).toNat == 1)) s) ∧
    (bField w ≠ 0#16 ∨ 2 ≤ (aField w).toNat → s.command w = .refused .reservedEncoding)

/-- The two-flag form: the flags are A[0] and B[0]; a word with A[15:1] ≠ 0 or B[15:1] ≠ 0 is refused. -/
def State.FormFlags (s : State) (op : BitVec 8) (k : Bool → Bool → Instr) : Prop :=
  ∀ w : CmdWord, opField w = op →
    ((aField w).toNat < 2 → (bField w).toNat < 2 →
      s.command w = exec (k ((aField w).toNat == 1) ((bField w).toNat == 1)) s) ∧
    (2 ≤ (aField w).toNat ∨ 2 ≤ (bField w).toNat → s.command w = .refused .reservedEncoding)

/-- R68: a right-channel write while its link bit is `link`. -/
def unlessLinked (link : Bool) (f : Frame) : List Frame := if link then [] else [f]

/-- The state after the core `c` at the port of `s` accepts a command that leaves its control fields alone and
emits `fs`. -/
def State.afterEmitting (s : State) (c : CoreInst) (fs : List Frame) : State :=
  s.accepted { c with pending := fs }

/-- R80's table: frames per command, for the link bits `att` and `gain`. -/
def frameCount (att gain : Bool) : Instr → Nat
  | .setVol _ _ => 4 - att.toNat - gain.toNat
  | .setVolL _ => 2
  | .setVolR _ => 2 - att.toNat - gain.toNat
  | .setAtt _ _ => 2 - att.toNat
  | .setAttL _ => 1
  | .setAttR _ => 1 - att.toNat
  | .setGain _ _ => 2 - gain.toNat
  | .setGainL _ => 1
  | .setGainR _ => 1 - gain.toNat
  | .mute ml mr => ml.toNat + if att then 0 else mr.toNat
  | .setZc _ => 1
  | .setAttLink _ => 1
  | .setGainLink _ => 1

/-- A byte `encodeAttenuation` may give. -/
def AttCode (b : Byte) : Prop := 0x10 ≤ b.toNat ∧ b.toNat ≤ 0xEF

/-- R29's table, with what each command may write there (R47, R48, R79, R116). -/
def Sends : Instr → RegSel → Byte → Prop
  | .setVol _ _, .attL, b => AttCode b
  | .setVol _ _, .gainL, b => b = 0x00#8 ∨ b = 0x40#8
  | .setVol _ _, .attR, b => AttCode b
  | .setVol _ _, .gainR, b => b = 0x00#8 ∨ b = 0x40#8
  | .setVolL _, .attL, b => AttCode b
  | .setVolL _, .gainL, b => b = 0x00#8 ∨ b = 0x40#8
  | .setVolR _, .attR, b => AttCode b
  | .setVolR _, .gainR, b => b = 0x00#8 ∨ b = 0x40#8
  | .setAtt _ _, .attL, b => AttCode b
  | .setAtt _ _, .attR, b => AttCode b
  | .setAttL _, .attL, b => AttCode b
  | .setAttR _, .attR, b => AttCode b
  | .setGain _ _, .gainL, b => b.toNat ≤ 0x3F
  | .setGain _ _, .gainR, b => b.toNat ≤ 0x3F
  | .setGainL _, .gainL, b => b.toNat ≤ 0x3F
  | .setGainR _, .gainR, b => b.toNat ≤ 0x3F
  | .mute _ _, .attL, b => b = 0x00#8
  | .mute _ _, .attR, b => b = 0x00#8
  | .setZc _, .state, b => b &&& 0x1F#8 = 0#8
  | .setAttLink _, .state, b => b &&& 0x1F#8 = 0#8
  | .setGainLink _, .state, b => b &&& 0x1F#8 = 0#8
  | _, _, _ => False

/-- R66: the state setters. -/
def IsSetter : Instr → Prop
  | .setZc _ => True
  | .setAttLink _ => True
  | .setGainLink _ => True
  | _ => False

/-- R49: the select code of a frame, bits [7:4] of its address byte. -/
def Frame.select (f : Frame) : Nat := f.addr.toNat / 16

/-- The host's next request, presented to core `k` on this turn: what `step` is about to do in `s`. -/
def State.HostPresents (s : State) (k : Nat) (r : Request) : Prop :=
  ∃ turns items, s.turns = .host :: turns ∧ s.host = { target := k, request := r } :: items

/-- R45: the digit `c` of a number in `base` has the value `d`; hexadecimal digits in either case (log 11). -/
def DigitOf (base : Nat) (c : Char) (d : Nat) : Prop :=
  d < base ∧ ("0123456789ABCDEF".toList[d]? = some c ∨ "0123456789abcdef".toList[d]? = some c)

/-- The digits `cs`, at least one, most significant first, write the number `n`. -/
def Numeral (base : Nat) (cs : List Char) (n : Nat) : Prop :=
  ∃ ds, ds ≠ [] ∧ List.Forall₂ (DigitOf base) cs ds ∧ n = Nat.ofDigits base ds.reverse

/-- R45: signed decimal integers. -/
inductive DecText : List Char → Int → Prop where
  | plain {cs n} : Numeral 10 cs n → DecText cs n
  | minus {cs n} : Numeral 10 cs n → DecText ('-' :: cs) (-n)

/-- R45: the texts of a numeric operand and the operand they write: a signed decimal integer in the range, or `0x`
and the 16-bit field itself, read as two's complement (R42). -/
inductive NumText : List Char → Int → Prop where
  | dec {cs v} : DecText cs v → -32768 ≤ v → v ≤ 32767 → NumText cs v
  | low {cs n} : Numeral 16 cs n → n < 32768 → NumText ('0' :: 'x' :: cs) n
  | high {cs n} : Numeral 16 cs n → 32768 ≤ n → n < 65536 → NumText ('0' :: 'x' :: cs) (n - 65536)

/-- R45: the texts of a boolean operand. -/
inductive FlagText : List Char → Bool → Prop where
  | zero : FlagText ['0'] false
  | one : FlagText ['1'] true

/-- R43, R45, R46: the command that a mnemonic with its operands' texts stands for. -/
inductive Denotes : String → List (List Char) → Instr → Prop where
  | setVol {x y l r} : NumText x l → NumText y r → Denotes "SETVOL" [x, y] (.setVol l r)
  | setVolL {x v} : NumText x v → Denotes "SETVOL_L" [x] (.setVolL v)
  | setVolR {x v} : NumText x v → Denotes "SETVOL_R" [x] (.setVolR v)
  | setAtt {x y l r} : NumText x l → NumText y r → Denotes "SETATT" [x, y] (.setAtt l r)
  | setAttL {x v} : NumText x v → Denotes "SETATT_L" [x] (.setAttL v)
  | setAttR {x v} : NumText x v → Denotes "SETATT_R" [x] (.setAttR v)
  | setGain {x y l r} : NumText x l → NumText y r → Denotes "SETGAIN" [x, y] (.setGain l r)
  | setGainL {x v} : NumText x v → Denotes "SETGAIN_L" [x] (.setGainL v)
  | setGainR {x v} : NumText x v → Denotes "SETGAIN_R" [x] (.setGainR v)
  | mute {x y ml mr} : FlagText x ml → FlagText y mr → Denotes "MUTE" [x, y] (.mute ml mr)
  | setZc {x e} : FlagText x e → Denotes "SETZC" [x] (.setZc e)
  | setAttLink {x e} : FlagText x e → Denotes "SETATTLINK" [x] (.setAttLink e)
  | setGainLink {x e} : FlagText x e → Denotes "SETGAINLINK" [x] (.setGainLink e)
  | setVolB {x v} : NumText x v → Denotes "SETVOLB" [x] (.setVol v v)
  | setAttB {x v} : NumText x v → Denotes "SETATTB" [x] (.setAtt v v)
  | setGainB {x v} : NumText x v → Denotes "SETGAINB" [x] (.setGain v v)
  | muteL : Denotes "MUTEL" [] (.mute true false)
  | muteR : Denotes "MUTER" [] (.mute false true)
  | muteAll : Denotes "MUTEALL" [] (.mute true true)
  | nop : Denotes "NOP" [] (.mute false false)

/-- A mnemonic or one operand as it stands in a line: at least one character, and none that separates. -/
def Piece (x : List Char) : Prop := x ≠ [] ∧ ∀ c ∈ x, c ≠ ' ' ∧ c ≠ ',' ∧ c ≠ ';'

/-- R45: a line as its examples write it: the mnemonic, a space, the operands with a comma and a space between. -/
def lineOf (name : String) : List (List Char) → List Char
  | [] => name.toList
  | op :: ops => name.toList ++ ' ' :: op ++ ops.flatMap fun x => ',' :: ' ' :: x

/-- R45: nothing, or a comment. -/
def Comment (cs : List Char) : Prop := cs = [] ∨ ∃ rest, cs = ';' :: rest

/-- `s` with its first turn used up. -/
def State.turnUsed (s : State) : State := { s with turns := s.turns.tail }

end Sys2Proof.Machine

open Sys2Proof Sys2Proof.Machine

/-! ### The commands -/

/-- R70, R71, R72: SETVOL, SETVOL_L and SETVOL_R: their words, and on a ready core the next state. -/
def Obligations.VolumeCommandsEmitTheirFrames : Prop :=
  ∀ (s : State) (c : CoreInst), s.Ready c →
    s.FormTwo 0x10#8 .setVol ∧ s.FormOne 0x11#8 .setVolL ∧ s.FormOne 0x12#8 .setVolR ∧
    (∀ l r : Int, exec (.setVol l r) s = .next (s.afterEmitting c
      ([mkFrame .attL (encodeVolume l).1 c.chipAddr, mkFrame .gainL (encodeVolume l).2 c.chipAddr]
        ++ unlessLinked c.attLink (mkFrame .attR (encodeVolume r).1 c.chipAddr)
        ++ unlessLinked c.gainLink (mkFrame .gainR (encodeVolume r).2 c.chipAddr)))) ∧
    (∀ v : Int, exec (.setVolL v) s = .next (s.afterEmitting c
      [mkFrame .attL (encodeVolume v).1 c.chipAddr, mkFrame .gainL (encodeVolume v).2 c.chipAddr])) ∧
    (∀ v : Int, exec (.setVolR v) s = .next (s.afterEmitting c
      (unlessLinked c.attLink (mkFrame .attR (encodeVolume v).1 c.chipAddr)
        ++ unlessLinked c.gainLink (mkFrame .gainR (encodeVolume v).2 c.chipAddr))))

/-- R73, R74, R75: SETATT, SETATT_L and SETATT_R. -/
def Obligations.AttenuationCommandsEmitTheirFrames : Prop :=
  ∀ (s : State) (c : CoreInst), s.Ready c →
    s.FormTwo 0x20#8 .setAtt ∧ s.FormOne 0x21#8 .setAttL ∧ s.FormOne 0x22#8 .setAttR ∧
    (∀ l r : Int, exec (.setAtt l r) s = .next (s.afterEmitting c
      (mkFrame .attL (encodeAttenuation l) c.chipAddr
        :: unlessLinked c.attLink (mkFrame .attR (encodeAttenuation r) c.chipAddr)))) ∧
    (∀ v : Int, exec (.setAttL v) s = .next (s.afterEmitting c
      [mkFrame .attL (encodeAttenuation v) c.chipAddr])) ∧
    (∀ v : Int, exec (.setAttR v) s = .next (s.afterEmitting c
      (unlessLinked c.attLink (mkFrame .attR (encodeAttenuation v) c.chipAddr))))

/-- R76, R77, R78: SETGAIN, SETGAIN_L and SETGAIN_R. -/
def Obligations.GainCommandsEmitTheirFrames : Prop :=
  ∀ (s : State) (c : CoreInst), s.Ready c →
    s.FormTwo 0x30#8 .setGain ∧ s.FormOne 0x31#8 .setGainL ∧ s.FormOne 0x32#8 .setGainR ∧
    (∀ l r : Int, exec (.setGain l r) s = .next (s.afterEmitting c
      (mkFrame .gainL (encodeGain l) c.chipAddr
        :: unlessLinked c.gainLink (mkFrame .gainR (encodeGain r) c.chipAddr)))) ∧
    (∀ g : Int, exec (.setGainL g) s = .next (s.afterEmitting c
      [mkFrame .gainL (encodeGain g) c.chipAddr])) ∧
    (∀ g : Int, exec (.setGainR g) s = .next (s.afterEmitting c
      (unlessLinked c.gainLink (mkFrame .gainR (encodeGain g) c.chipAddr))))

/-- R79: MUTE sends 0x00, left before right, the right write suppressed by the attenuation link. -/
def Obligations.MuteSendsTheMuteCode : Prop :=
  ∀ (s : State) (c : CoreInst), s.Ready c →
    s.FormFlags 0x40#8 .mute ∧
    ∀ ml mr : Bool, exec (.mute ml mr) s = .next (s.afterEmitting c
      ((if ml then [mkFrame .attL 0x00#8 c.chipAddr] else [])
        ++ if mr then unlessLinked c.attLink (mkFrame .attR 0x00#8 c.chipAddr) else []))

/-- R61 to R65: a setter writes its field, and its one frame carries the byte packed from the booleans as they
stand after that write, whether or not the value changed; and while a link bit is set, the right-channel
write of that link emits nothing. -/
def Obligations.StateSettersWriteThenPack : Prop :=
  ∀ (s : State) (c : CoreInst), s.Ready c →
    s.FormFlag 0x50#8 .setZc ∧ s.FormFlag 0x51#8 .setAttLink ∧ s.FormFlag 0x52#8 .setGainLink ∧
    (∀ d : Byte, c.attLink = true → c.writeAttR d = c) ∧
    (∀ d : Byte, c.gainLink = true → c.writeGainR d = c) ∧
    ∀ e : Bool,
    (exec (.setZc e) s = .next (s.accepted { c with
      zc := e, pending := [mkFrame .state (packState { c with zc := e }) c.chipAddr] })) ∧
    (exec (.setAttLink e) s = .next (s.accepted { c with
      attLink := e, pending := [mkFrame .state (packState { c with attLink := e }) c.chipAddr] })) ∧
    (exec (.setGainLink e) s = .next (s.accepted { c with
      gainLink := e, pending := [mkFrame .state (packState { c with gainLink := e }) c.chipAddr] }))

/-- R80: the number of frames each command leaves pending, by the link bits it finds; at most four. -/
def Obligations.FramesPerCommandTable : Prop :=
  ∀ (i : Instr) (s : State) (c : CoreInst), s.Ready c →
    ∃ t c', exec i s = .next t ∧ t.insts[s.port]? = some c' ∧
      c'.pending.length = frameCount c.attLink c.gainLink i ∧ c'.pending.length ≤ 4

/-- R29, R47, R48, R116: every frame a command emits goes to a register the spec's table gives that command,
with a data byte of the range that command writes there, and carries the core's chip address. -/
def Obligations.CommandsWriteOnlyTheirRegisters : Prop :=
  ∀ (i : Instr) (s : State) (c : CoreInst), s.Ready c →
    ∃ t c', exec i s = .next t ∧ t.insts[s.port]? = some c' ∧
      ∀ f ∈ c'.pending, ∃ sel d, f = mkFrame sel d c.chipAddr ∧ Sends i sel d

/-- R67: link suppression is per register: what a channel command emits is what it emits with both links
clear, less the right attenuation writes while `attLink` and less the right gain writes while `gainLink`. -/
def Obligations.LinkSuppressionIsPerRegister : Prop :=
  ∀ (i : Instr) (s u : State) (c d : CoreInst), ¬ IsSetter i → s.Ready c →
    u.Ready d → d.chipAddr = c.chipAddr → d.attLink = false → d.gainLink = false →
    ∃ t v c' d', exec i s = .next t ∧ exec i u = .next v ∧
      t.insts[s.port]? = some c' ∧ v.insts[u.port]? = some d' ∧
      c'.pending = d'.pending.filter fun f =>
        !((c.attLink && f.select == 2) || (c.gainLink && f.select == 3))

/-- R68: the frames of one command go out in ascending order of select code. -/
def Obligations.FramesAscendBySelectCode : Prop :=
  ∀ (i : Instr) (s : State) (c : CoreInst), s.Ready c →
    ∃ t c', exec i s = .next t ∧ t.insts[s.port]? = some c' ∧
      c'.pending.Pairwise fun f g => f.select < g.select

/-- R26, R27: the frame of every command: whatever `exec` answers next, the bus, its events, the target space,
the schedule and every other core are as before; the core keeps its chip address, phase, select line and
`live`, and the control fields but the one its setter names. -/
def Obligations.CommandsLeaveTheRestUnchanged : Prop :=
  ∀ (i : Instr) (s t : State), exec i s = .next t →
    t.owner = s.owner ∧ t.trace = s.trace ∧ t.turns = s.turns ∧ t.port = s.port ∧
    t.insts.length = s.insts.length ∧
    (∀ a, t.space.read a = s.space.read a) ∧
    (∀ k, k ≠ s.port → t.insts[k]? = s.insts[k]?) ∧
    ∀ c c', s.insts[s.port]? = some c → t.insts[s.port]? = some c' →
      c'.chipAddr = c.chipAddr ∧ c'.phase = c.phase ∧ c'.csN = c.csN ∧ c'.live = c.live ∧
      ((∀ e, i ≠ .setZc e) → c'.zc = c.zc) ∧
      ((∀ e, i ≠ .setAttLink e) → c'.attLink = c.attLink) ∧
      ((∀ e, i ≠ .setGainLink e) → c'.gainLink = c.gainLink)

/-- R24: "A command's effect therefore depends only on its operands and on" the four control fields: two ready
cores that agree on them emit the same frames and end with the same control fields, whatever else differs
between the two systems. -/
def Obligations.EffectDependsOnlyOnControlFields : Prop :=
  ∀ (i : Instr) (s u : State) (c d : CoreInst), s.Ready c → u.Ready d → c.control = d.control →
    ∃ t v c' d', exec i s = .next t ∧ exec i u = .next v ∧
      t.insts[s.port]? = some c' ∧ v.insts[u.port]? = some d' ∧
      c'.pending = d'.pending ∧ c'.control = d'.control

/-- R46: the seven expansions; NOP, which is `MUTE 0, 0`, emits no frame and changes no core (only the host's
word is taken and its index moves on), and MUTER emits no frame while the attenuation link is set. -/
def Obligations.PseudoInstructionsExpand : Prop :=
  (∀ v : Int, expandPseudo (.setVolB v) = .setVol v v ∧ expandPseudo (.setAttB v) = .setAtt v v ∧
    expandPseudo (.setGainB v) = .setGain v v) ∧
  expandPseudo .muteL = .mute true false ∧ expandPseudo .muteR = .mute false true ∧
  expandPseudo .muteAll = .mute true true ∧ expandPseudo .nop = .mute false false ∧
  ∀ (s : State) (c : CoreInst), s.Ready c →
    exec (expandPseudo .nop) s = .next { s with host := s.host.tail, pc := s.pc + 1 } ∧
    (c.attLink = true → exec (expandPseudo .muteR) s = .next (s.afterEmitting c []))

/-! ### Encodings -/

/-- R50: the address byte of each register for every chip address, the address bytes there are, and that each
names one register of one chip; and the frame of R49 and R81 made with it: `Transfer` appends the pair of
the data byte it is given, unchanged, and the address byte of its register at the core's chip address. -/
def Obligations.AddressByteValues : Prop :=
  (∀ a : ChipAddr,
    (addressByte .attL a).toNat = 0x00 + a.toNat ∧ (addressByte .gainL a).toNat = 0x10 + a.toNat ∧
    (addressByte .attR a).toNat = 0x20 + a.toNat ∧ (addressByte .gainR a).toNat = 0x30 + a.toNat ∧
    (addressByte .state a).toNat = 0x40 + a.toNat) ∧
  (∀ b : Byte, (∃ sel a, addressByte sel a = b) ↔ b.toNat / 16 ≤ 4 ∧ b.toNat % 16 ≤ 7) ∧
  (∀ (sel sel' : RegSel) (a b : ChipAddr), addressByte sel a = addressByte sel' b → sel = sel' ∧ a = b) ∧
  (∀ (sel : RegSel) (d : Byte) (a : ChipAddr), (mkFrame sel d a).data = d ∧ (mkFrame sel d a).addr = addressByte sel a) ∧
  ∀ (c : CoreInst) (sel : RegSel) (d : Byte), c.transfer sel d =
    { c with pending := c.pending ++ [{ data := d, addr := addressByte sel c.chipAddr }] }

/-- R22: the layout of the state byte, bit by bit, and that it tells the three booleans. -/
def Obligations.StateByteLayout : Prop :=
  ∀ c : CoreInst,
    (packState c).getLsbD 7 = c.attLink ∧ (packState c).getLsbD 6 = c.gainLink ∧
    (packState c).getLsbD 5 = !c.zc ∧ (∀ k, k < 5 → (packState c).getLsbD k = false) ∧
    ∀ d : CoreInst, packState c = packState d ↔
      c.attLink = d.attLink ∧ c.gainLink = d.gainLink ∧ c.zc = d.zc

/-- R53: the attenuation encoder on every integer, that it is monotone, and R57's "no encoder function
produces it" of the mute code. -/
def Obligations.AttenuationEncoderLaws : Prop :=
  (∀ v : Int, -223 ≤ v → v ≤ 0 → ((encodeAttenuation v).toNat : Int) = 0x10 - v) ∧
  (∀ v : Int, v < -223 → encodeAttenuation v = 0xEF#8) ∧
  (∀ v : Int, 0 < v → encodeAttenuation v = 0x10#8) ∧
  (∀ v w : Int, v ≤ w → (encodeAttenuation w).toNat ≤ (encodeAttenuation v).toNat) ∧
  ∀ v : Int, encodeAttenuation v ≠ muteCode

/-- R54: the gain encoder on every integer, and that it is monotone. -/
def Obligations.GainEncoderLaws : Prop :=
  (∀ g : Int, 0 ≤ g → g ≤ 63 → ((encodeGain g).toNat : Int) = g) ∧
  (∀ g : Int, g < 0 → encodeGain g = 0x00#8) ∧
  (∀ g : Int, 63 < g → encodeGain g = 0x3F#8) ∧
  ∀ v w : Int, v ≤ w → (encodeGain v).toNat ≤ (encodeGain w).toNat

/-- R56 on every integer, by the closed form of R59. -/
def Obligations.VolumeEncoderClosedForm : Prop :=
  (∀ k : Nat, k ≤ 223 → encodeVolume (-2 * (k : Int)) = (BitVec.ofNat 8 (0x10 + k), 0x00#8)) ∧
  (∀ k : Nat, k ≤ 222 → encodeVolume (-(2 * (k : Int) + 1)) = (BitVec.ofNat 8 (0x11 + k), 0x40#8)) ∧
  (∀ v : Int, 0 < v → encodeVolume v = encodeVolume 0) ∧
  ∀ v : Int, v < -446 → encodeVolume v = encodeVolume (-446)

/-- R59: the pair a volume encodes to denotes exactly that volume, in quarters of a dB; so the encoder is
injective on its range. -/
def Obligations.VolumeLevelIsExact : Prop :=
  (∀ v : Int, -446 ≤ v → v ≤ 0 →
    attLevel (encodeVolume v).1 + gainLevel (encodeVolume v).2 = v) ∧
  ∀ v w : Int, -446 ≤ v → v ≤ 0 → -446 ≤ w → w ≤ 0 → encodeVolume v = encodeVolume w → v = w

/-- R21: the chip address is the low three bits of the configuration integer, so integers equal modulo 8 give
the same one (R119) and −1 gives 7. -/
def Obligations.ChipAddressIsModEight : Prop :=
  (∀ cfg : Int, ((chipAddrOf cfg).toNat : Int) = cfg % 8) ∧
  (∀ a b : Int, chipAddrOf a = chipAddrOf b ↔ a % 8 = b % 8) ∧
  chipAddrOf (-1) = 7#3

/-- Decoding the word of a well-formed command gives that command back, for all thirteen. -/
def Obligations.DecodeOfEncode : Prop :=
  ∀ i : Instr, i.WellFormed → decode (encode i) = .ok i

/-- R44: a word that is a command is the word of one well-formed command only: nothing of it is dropped. -/
def Obligations.EncodeOfDecode : Prop :=
  ∀ (w : CmdWord) (i : Instr), decode w = .ok i → i.WellFormed ∧ encode i = w

/-- R44: the decoder accepts exactly the words that match a row of the opcode table, the command is that row's,
and no word matches two rows. -/
def Obligations.DecodeFollowsTheOpcodeTable : Prop :=
  (∀ (w : CmdWord) (i : Instr), decode w = .ok i → rowMatches w (opcodeRows.getD (rowIndex i) (0#40, 0#40))) ∧
  (∀ w : CmdWord, (∃ row ∈ opcodeRows, rowMatches w row) → ∃ i, decode w = .ok i) ∧
  ∀ (w : CmdWord) (m n : Nat) (row row' : CmdWord × CmdWord), opcodeRows[m]? = some row →
    opcodeRows[n]? = some row' → rowMatches w row → rowMatches w row' → m = n

/-- Words written out from R43's encodings, one of each family (R45, §2.3 and §2.4 of the test vectors). -/
def Obligations.SampleWordsDecode : Prop :=
  decode 0x10FFFDFFF9#40 = .ok (.setVol (-3) (-7)) ∧
  decode 0x22FFF60000#40 = .ok (.setAttR (-10)) ∧
  decode 0x300046FFFB#40 = .ok (.setGain 70 (-5)) ∧
  decode 0x4000010000#40 = .ok (.mute true false) ∧
  decode 0x5200010000#40 = .ok (.setGainLink true) ∧
  decode 0x0000000000#40 = .error .unassignedOpcode

/-- R43, R45, R46: a line of a mnemonic and operands, with or without a comment, assembles exactly if the mnemonic
is one of the thirteen or of the seven pseudo-instructions and the operands are as many as it takes and in
range; then it gives the word of exactly that command. So a line of another mnemonic, with an operand out of
range or with too few or too many operands gives nothing (what text a number has beyond R45 is log 11).
Every operand has a text, and whatever line assembles to a command, the decoder reads that command back. -/
def Obligations.AssembledLinesAreCommands : Prop :=
  (∀ (name : String) (ops : List (List Char)) (cs : List Char),
    Piece name.toList → name ≠ ".reset" → (∀ x ∈ ops, Piece x) → Comment cs →
    ∀ r, assembleLine (lineOf name ops ++ cs) = some r ↔
      ∃ i, Denotes name ops i ∧ r = some (.command (encode i))) ∧
  (∀ v : Int, -32768 ≤ v → v ≤ 32767 → ∃ x, Piece x ∧ DecText x v ∧ NumText x v) ∧
  ∀ (line : List Char) (w : CmdWord), assembleLine line = some (some (.command w)) →
    ∃ i : Instr, i.WellFormed ∧ w = encode i ∧ decode w = .ok i

/-! ### Acceptance, refusals and reset -/

/-- A step runs the decoded instruction: when the host's turn comes and the word it presents to core `k` is the
command `i`, the step is `exec i`, with the turn used up and the port at `k`. -/
def Obligations.StepRunsTheDecodedCommand : Prop :=
  ∀ (s : State) (k : Nat) (w : CmdWord) (i : Instr), s.HostPresents k (.command w) → decode w = .ok i →
    step s = exec i { s.turnUsed with port := k }

/-- R98, R99, and their order (R102): a word presented to a core that is not live is refused as NotConstructed,
whatever the word; a reserved word presented to a ready core is refused as ReservedEncoding, and it is
reserved exactly when it matches no row of the opcode table (R44). A live busy core takes no word at all:
BusyCoreLeavesTheWordWithTheHost. -/
def Obligations.WordsAreCheckedInOrder : Prop :=
  ∀ (s : State) (k : Nat) (w : CmdWord) (c : CoreInst), s.HostPresents k (.command w) →
    s.insts[k]? = some c →
    (c.live = false → step s = .refused .notConstructed) ∧
    (c.live = true → c.phase = .idle → c.pending = [] → ∀ r, decode w = .error r →
      step s = .refused .reservedEncoding) ∧
    ((∃ r, decode w = .error r) ↔ ∀ row ∈ opcodeRows, rowMatches w row = false)

/-- R25, R113: a live core that is mid-command accepts no word: the host still holds it, the command index stands,
and nothing changes but the turn that was used (log 2) and the port it was used at (log 3). That a reserved
word too is held and not refused is DEDUCED (log 10). -/
def Obligations.BusyCoreLeavesTheWordWithTheHost : Prop :=
  ∀ (s : State) (k : Nat) (w : CmdWord) (c : CoreInst), s.HostPresents k (.command w) →
    s.insts[k]? = some c → c.live = true → (c.phase ≠ .idle ∨ c.pending ≠ []) →
    step s = .next { s.turnUsed with port := k }

/-- R96, R97, R98: no command faults, and a command is refused only where there is no core or the core is not
constructed. -/
def Obligations.CommandsNeverFault : Prop :=
  ∀ (i : Instr) (s : State),
    (∀ e, exec i s ≠ .fault e) ∧
    ∀ r, exec i s = .refused r →
      (s.insts[s.port]? = none ∧ r = .noSuchCore) ∨
      ∃ c, s.insts[s.port]? = some c ∧ c.live = false ∧ r = .notConstructed

/-- R107, R108, R109: the reset input sets every field of the core it is presented to, emits no frame and leaves
the bus alone; mid-command it is refused. That the command index stands is the model's (log 4), and so is
that the reset leaves the host's list (log 3), and the turn (log 2). -/
def Obligations.ResetConstructsTheCore : Prop :=
  ∀ (s : State) (k : Nat) (cfg : Int) (c : CoreInst), s.HostPresents k (.reset cfg) →
    s.insts[k]? = some c →
    ((c.live = false ∨ (c.phase = .idle ∧ c.pending = [])) → ∃ t, step s = .next t ∧
      t.insts = s.insts.set k
        { chipAddr := BitVec.ofInt 3 cfg, zc := true, attLink := false, gainLink := false,
          pending := [], phase := .idle, csN := true, live := true } ∧
      t.owner = s.owner ∧ t.trace = s.trace ∧ t.pc = s.pc ∧ t.host = s.host.tail ∧
      ∀ d, t.insts[k]? = some d → packState d = 0x00#8) ∧
    (c.live = true → (c.phase ≠ .idle ∨ c.pending ≠ []) → step s = .refused .resetWhileBusy)

/-! ### The framer and the bus -/

/-- R83, R84, R87, R88: each of the framer's own four transitions: on its turn, where the rule enables it, it
has the effect and records the event the rule gives. That a turn comes, and is used up, is the model's form
of which agent moves next (log 2). -/
def Obligations.FramerTransitions : Prop :=
  ∀ (s : State) (k : Nat) (c : CoreInst) (rest : List Agent), s.turns = .framer k :: rest →
    s.insts[k]? = some c →
    (c.phase = .idle → c.pending ≠ [] → s.owner = none →
      step s = .next { s with
        turns := rest, owner := some k, insts := s.insts.set k { c with phase := .acquired },
        trace := s.trace ++ [.acquire k Config.bus] }) ∧
    (c.phase = .acquired →
      step s = .next { s with
        turns := rest, insts := s.insts.set k { c with phase := .selected, csN := false },
        trace := s.trace ++ [.csLow k] }) ∧
    (c.phase = .sentAddr →
      step s = .next { s with
        turns := rest, insts := s.insts.set k { c with phase := .deselected, csN := true },
        trace := s.trace ++ [.csHigh k] }) ∧
    (c.phase = .deselected →
      step s = .next { s with
        turns := rest, owner := none,
        insts := s.insts.set k { c with phase := .idle, pending := c.pending.tail },
        trace := s.trace ++ [.release k] })

/-- R85, R86: the transport takes the data byte and then the address byte of the head frame of core `k`. That
the transport takes a byte is its turn in the schedule (log 2). -/
def Obligations.TransportTakesBothBytes : Prop :=
  ∀ (s : State) (k : Nat) (c : CoreInst) (f : Frame) (fs : List Frame) (rest : List Agent),
    s.turns = .transport k :: rest → s.insts[k]? = some c → c.pending = f :: fs →
    (c.phase = .selected →
      step s = .next { s with
        turns := rest, insts := s.insts.set k { c with phase := .sentData },
        trace := s.trace ++ [.byte k f.data] }) ∧
    (c.phase = .sentData →
      step s = .next { s with
        turns := rest, insts := s.insts.set k { c with phase := .sentAddr },
        trace := s.trace ++ [.byte k f.addr] })

/-- The model's choice of log 2: a turn that comes where the spec enables no transition of that agent is used up
and changes nothing else: a framer with nothing to send, or waiting for the bus (R91) or for the transport
(R90), and a transport that is offered no byte. -/
def Obligations.DisabledTurnsWait : Prop :=
  ∀ (s : State) (k : Nat) (c : CoreInst) (rest : List Agent), s.insts[k]? = some c →
    (s.turns = .framer k :: rest →
      ((c.phase = .idle ∧ (c.pending = [] ∨ s.owner ≠ none)) ∨ c.phase = .selected ∨ c.phase = .sentData) →
      step s = .next { s with turns := rest }) ∧
    (s.turns = .transport k :: rest → c.phase ≠ .selected → c.phase ≠ .sentData →
      step s = .next { s with turns := rest })

/-- R89: given the turns of its six steps, a core with a frame and a free bus sends that frame as exactly the
six events, consecutively and in order, and is idle again with that frame gone and the bus free. -/
def Obligations.SixTurnsSendOneFrame : Prop :=
  ∀ (s : State) (k : Nat) (c : CoreInst) (f : Frame) (fs : List Frame) (rest : List Agent),
    s.insts[k]? = some c → c.pending = f :: fs → c.phase = .idle → s.owner = none →
    s.turns = frameTurns k ++ rest →
    s.run 6 = .next { s with
      turns := rest, insts := s.insts.set k { c with pending := fs, csN := true },
      trace := s.trace ++
        [.acquire k Config.bus, .csLow k, .byte k f.data, .byte k f.addr, .csHigh k, .release k] }

/-- R25, R36, R89: a command a host presents to a ready core on a free bus, with the turns to send its frames,
runs to completion: the bus carries exactly the six events of each frame `exec` queued, in its order, and
the core ends ready with the control fields `exec` left. The schedule of these 25 turns is the model's form
of the agents' moves (log 2), the host's list too (log 3). -/
def Obligations.CommandRunsToCompletion : Prop :=
  ∀ (s : State) (c : CoreInst) (k : Nat) (i : Instr) (items : List HostItem) (rest : List Agent),
    i.WellFormed → s.insts[k]? = some c → c.live = true → c.phase = .idle → c.pending = [] → c.csN = true →
    s.owner = none → s.host = { target := k, request := .command (encode i) } :: items →
    s.turns = commandTurns k ++ rest →
    ∃ t u c', exec i { s with port := k } = .next u ∧ u.insts[k]? = some c' ∧
      s.run 25 = .next t ∧
      t = { s with
        turns := rest, host := items, port := k, pc := s.pc + 1,
        insts := s.insts.set k { c' with pending := [] },
        trace := s.trace ++ c'.pending.flatMap (wire k) } ∧
      t.Completed [k]

/-- R28, R31, R112: a command that has run to completion has written the locations its frames name and no other:
the target space is the one before with those frames written, in order; after a setter the state location
holds the byte packed from the core's booleans. The target space is the model's view of the completed
frames, not the chip's registers (log 8); the schedule and the host's list are logs 2 and 3. -/
def Obligations.CompletedCommandWritesItsLocations : Prop :=
  ∀ (s : State) (c : CoreInst) (k : Nat) (i : Instr) (items : List HostItem) (rest : List Agent),
    s.Inv → i.WellFormed → s.insts[k]? = some c → c.live = true → c.phase = .idle → c.pending = [] →
    s.owner = none → s.host = { target := k, request := .command (encode i) } :: items →
    s.turns = commandTurns k ++ rest →
    ∃ t u c' d, exec i { s with port := k } = .next u ∧ u.insts[k]? = some c' ∧
      s.run 25 = .next t ∧ t.insts[k]? = some d ∧
      t.space = s.space.afterFrames (c'.pending.map fun f => (k, f)) ∧
      (IsSetter i → t.space.read (location .state c.chipAddr) = some (packState d))

/-- R100: a core in `Selected` or `SentData` whose transport never takes the next byte stays there for ever, with
its select line low and the bus owned, whatever the other agents do, and no other core gets the bus. -/
def Obligations.StuckWithoutTheTransport : Prop :=
  ∀ (n : Nat) (s t : State) (k : Nat) (c : CoreInst), s.Inv → s.insts[k]? = some c →
    (c.phase = .selected ∨ c.phase = .sentData) → (∀ a ∈ s.turns, a ≠ .transport k) →
    s.run n = .next t → t.insts[k]? = some c ∧ t.owner = some k ∧ c.csN = false ∧
      ∀ j d, j ≠ k → t.insts[j]? = some d → d.phase = .idle

/-- The model's choice of log 2, after R97, R100 and R110: an empty schedule means that no agent moves any more;
then the machine is stuck if a byte is offered and not taken, and otherwise stays as it is. -/
def Obligations.NoTurnIsStuckOrWaiting : Prop :=
  ∀ s : State, s.turns = [] →
    ((∃ c ∈ s.insts, c.phase = .selected ∨ c.phase = .sentData) → step s = .fault .stuckOnTransport) ∧
    ((∀ c ∈ s.insts, c.phase ≠ .selected ∧ c.phase ≠ .sentData) → step s = .next s)

/-! ### What every step keeps -/

/-- The invariant holds at reset, and in a system of any number of cores before any reset (the field values of a
core before its reset are the model's, log 6). -/
def Obligations.InvariantAtResetAndPowerOn : Prop :=
  State.reset.Inv ∧ ∀ n : Nat, (State.powerOn n).Inv

/-- R23, R80, R89, R91, R92: every step keeps the invariant of the framer and the bus. -/
def Obligations.EveryStepKeepsTheInvariant : Prop :=
  ∀ s t : State, s.Inv → step s = .next t → t.Inv

/-- R91, R92: at most one core is in mid-frame, and the select line a core drives is low while that core is in
`Selected`, `SentData` or `SentAddr`: with a line of its own exactly then, with one shared line (D20) exactly
while some core is. -/
def Obligations.OneCoreDrivesTheBus : Prop :=
  ∀ s : State, s.Inv →
    (∀ (i j : Nat) (c d : CoreInst), s.insts[i]? = some c → s.insts[j]? = some d → c.phase ≠ .idle → d.phase ≠ .idle → i = j) ∧
    (∀ (i : Nat) (c : CoreInst), s.insts[i]? = some c →
      (c.phase = .selected ∨ c.phase = .sentData ∨ c.phase = .sentAddr) → s.selectLine i = false) ∧
    ∀ i, s.selectLine i = false ↔
      if Config.csShared then ∃ c ∈ s.insts, c.phase = .selected ∨ c.phase = .sentData ∨ c.phase = .sentAddr
      else ∃ c, s.insts[i]? = some c ∧ (c.phase = .selected ∨ c.phase = .sentData ∨ c.phase = .sentAddr)

/-- R31, R35, R36: no step loses, repeats or reorders a frame: for every core, the frames completed followed by
those still pending are the same after the step as before, with the newly accepted command's frames at the
end where the step is its acceptance. -/
def Obligations.FramesAreNeverLostOrReordered : Prop :=
  ∀ s t : State, s.Inv → step s = .next t → ∀ k,
    (t.sentBy k ++ t.pendingOf k = s.sentBy k ++ s.pendingOf k) ∨
    ∃ w i u, s.HostPresents k (.command w) ∧ decode w = .ok i ∧
      exec i { s.turnUsed with port := k } = .next u ∧
      s.pendingOf k = [] ∧ t.sentBy k ++ t.pendingOf k = s.sentBy k ++ u.pendingOf k

/-- R95: seen atomically, a framer's or transport's turn either changes nothing but the schedule or sends the
whole head frame of its core in one step. -/
def Obligations.FramerRefinesTheAtomicView : Prop :=
  ∀ (s t : State) (k : Nat) (c : CoreInst) (rest : List Agent), s.Inv → s.insts[k]? = some c →
    (s.turns = .framer k :: rest ∨ s.turns = .transport k :: rest) → step s = .next t →
    t.atomicView = { s.atomicView with turns := rest } ∨
    some t.atomicView = State.frameStep { s.atomicView with turns := rest } k { c with phase := .idle, csN := true }

/-- R28, R31: a step writes a location of the target space only by releasing a frame: then the location of that
frame's address byte holds its data byte and every other location is as before; after any other step every
location is as before. -/
def Obligations.LocationsChangeOnlyAtRelease : Prop :=
  ∀ s t : State, s.Inv → step s = .next t →
    (∀ a, t.space.read a = s.space.read a) ∨
    ∃ k c f fs, s.turns.head? = some (.framer k) ∧ s.insts[k]? = some c ∧ c.phase = .deselected ∧
      c.pending = f :: fs ∧ t.space.read f.addr.toNat = some f.data ∧
      ∀ a, a ≠ f.addr.toNat → t.space.read a = s.space.read a

/-- R17, R18, R19, R21, R66: across every step, a core's control field changes only by its reset or by the one
setter that names the field; the chip address only by its reset. -/
def Obligations.OnlySettersAndResetWriteControl : Prop :=
  ∀ (s t : State) (k : Nat) (c d : CoreInst), step s = .next t → s.insts[k]? = some c →
    t.insts[k]? = some d →
    (d.chipAddr ≠ c.chipAddr → ∃ cfg, s.HostPresents k (.reset cfg)) ∧
    (d.zc ≠ c.zc → (∃ cfg, s.HostPresents k (.reset cfg)) ∨
      ∃ w e, s.HostPresents k (.command w) ∧ decode w = .ok (.setZc e)) ∧
    (d.attLink ≠ c.attLink → (∃ cfg, s.HostPresents k (.reset cfg)) ∨
      ∃ w e, s.HostPresents k (.command w) ∧ decode w = .ok (.setAttLink e)) ∧
    (d.gainLink ≠ c.gainLink → (∃ cfg, s.HostPresents k (.reset cfg)) ∨
      ∃ w e, s.HostPresents k (.command w) ∧ decode w = .ok (.setGainLink e))

/-- R27: each core instance owns its state: a step changes no core but the one it is about, and the number of
core instances never changes. -/
def Obligations.StepsTouchOneCore : Prop :=
  ∀ s t : State, step s = .next t →
    t.insts.length = s.insts.length ∧
    ∀ k, t.insts[k]? ≠ s.insts[k]? →
      s.turns.head? = some (.framer k) ∨ s.turns.head? = some (.transport k) ∨
      ∃ r, s.HostPresents k r

/-- R20, R25: the command index advances by one exactly when a command is accepted, and no command or agent
changes it otherwise. One index for the whole system is a DESIGN CHOICE and that a reset leaves it is DEDUCED
(log 4); the host's list, whose head an acceptance takes off, is log 3. -/
def Obligations.CommandIndexCountsAcceptances : Prop :=
  ∀ s t : State, step s = .next t →
    (t.pc = s.pc ∧ ∀ k w c, s.HostPresents k (.command w) → s.insts[k]? = some c → c.cmdReady = false) ∨
    (t.pc = s.pc + 1 ∧ t.host = s.host.tail ∧
      ∃ k w i c, s.HostPresents k (.command w) ∧ decode w = .ok i ∧ s.insts[k]? = some c ∧ c.cmdReady = true)

/-- R45, R111: a `.reset` line gives the reset with its integer and nothing else; an empty or comment line gives
nothing; spaces before and after a line, and a comment, change nothing (spaces and the decimal form: log 11);
and a program is its lines' requests in order. -/
def Obligations.ResetLinesAndSpacing : Prop :=
  (∀ (ops : List (List Char)) (cs : List Char), (∀ x ∈ ops, Piece x) → Comment cs →
    ∀ r, assembleLine (lineOf ".reset" ops ++ cs) = some r ↔ ∃ x v, ops = [x] ∧ DecText x v ∧ r = some (.reset v)) ∧
  (∀ (n : Nat) (cs : List Char), Comment cs → assembleLine (List.replicate n ' ' ++ cs) = some none) ∧
  (∀ (m n : Nat) (line cs : List Char), (∀ c ∈ line, c ≠ ';') → Comment cs →
    assembleLine (List.replicate m ' ' ++ line ++ List.replicate n ' ' ++ cs) = assembleLine line) ∧
  ∀ (lines : List (List Char)) (rs : List Request), assembleProgram lines = some rs ↔
    ∃ parts : List (Option Request), lines.map assembleLine = parts.map some ∧ rs = parts.reduceOption
end

