-- ==== Sys2Proof/Laws/Arith.lean ====
section
/-! SUPPORT. The numeric encoder's bytes as numbers (spec R60: nothing wraps), and the division of R11. -/

namespace Sys2Proof.Machine

/-- R11: on a non-positive numerator the quotient rounds toward zero. -/
theorem tdiv_two_of_nonpos {a : Int} (h : a ≤ 0) : tdiv a 2 = -((-a) / 2) := by
  have ha : a = -(-a) := by omega
  unfold tdiv
  rw [ha, Int.neg_tdiv, Int.tdiv_eq_ediv_of_nonneg (by omega)]
  simp

theorem encodeAttenuation_toNat (v : Int) :
    (encodeAttenuation v).toNat = 0x10 + (clamp v (-223) 0).natAbs := by
  have h : (clamp v (-223) 0).natAbs ≤ 223 := by unfold clamp; omega
  simp [encodeAttenuation, attBase, attMin]
  omega

theorem encodeGain_toNat (v : Int) : (encodeGain v).toNat = (clamp v 0 63).toNat := by
  have h : (clamp v 0 63).toNat ≤ 63 := by unfold clamp; omega
  simp [encodeGain, gainMax]
  omega

/-- The gain byte of a volume is one of two constants (R48). -/
theorem encodeVolume_gain (v : Int) : (encodeVolume v).2 = 0x00#8 ∨ (encodeVolume v).2 = 0x40#8 := by
  simp only [encodeVolume]
  split
  · exact .inr rfl
  · exact .inl rfl

theorem packState_low (c : CoreInst) : packState c &&& 0x1F#8 = 0#8 := by
  simp only [packState]
  cases c.attLink <;> cases c.gainLink <;> cases c.zc <;> decide

theorem addressByte_toNat (sel : RegSel) (chip : ChipAddr) :
    (addressByte sel chip).toNat = 16 * sel.code.toNat + chip.toNat := by
  revert chip
  cases sel <;> decide

end Sys2Proof.Machine
end

