-- ==== Sys2Proof/Laws/Assembler.lean ====
section
/-! SUPPORT. What the assembler's text operations do (spec R45): spaces, comments, commas, digits. -/

namespace Sys2Proof.Machine

theorem stripComment_of_clean {l : List Char} (h : ∀ c ∈ l, c ≠ ';') (rest : List Char) :
    stripComment (l ++ ';' :: rest) = l ∧ stripComment l = l := by
  have hp : ∀ c ∈ l, (c != ';') = true := fun c hc => by simpa using h c hc
  constructor
  · simp [stripComment, List.takeWhile_append_of_pos hp]
  · exact List.takeWhile_eq_self_iff.2 hp

theorem dropWhile_spaces (n : Nat) (l : List Char) :
    (List.replicate n ' ' ++ l).dropWhile (· == ' ') = l.dropWhile (· == ' ') :=
  List.dropWhile_append_of_pos (by simp)

/-- A text that neither begins nor ends with a space is left as it is. -/
theorem trimSpaces_of_ends {l : List Char} (hh : l.head? ≠ some ' ') (hl : l.getLast? ≠ some ' ') :
    trimSpaces l = l := by
  have h1 : ∀ m : List Char, m.head? ≠ some ' ' → m.dropWhile (· == ' ') = m := by
    intro m hm
    cases m with
    | nil => rfl
    | cons c cs =>
      have hc : ¬ c = ' ' := by simpa using hm
      simp [hc]
  rw [trimSpaces, h1 l hh, h1 _ (by rwa [List.head?_reverse]), List.reverse_reverse]

/-- Spaces around a text do not matter. -/
theorem trimSpaces_pad (m n : Nat) (l : List Char) :
    trimSpaces (List.replicate m ' ' ++ l ++ List.replicate n ' ') = trimSpaces l := by
  unfold trimSpaces
  rw [List.append_assoc, dropWhile_spaces, List.dropWhile_append]
  split
  · rename_i he
    have hd : l.dropWhile (· == ' ') = [] := by simpa using he
    rw [hd]
    have hr := dropWhile_spaces n []
    rw [List.append_nil] at hr
    rw [hr]; rfl
  · rw [List.reverse_append, List.reverse_replicate, dropWhile_spaces]

/-- Up to the next comma, the characters are one piece. -/
theorem splitCommas_piece {x : List Char} (h : ∀ c ∈ x, c ≠ ',') (acc rest : List Char) :
    splitCommas acc (x ++ rest) = splitCommas (x.reverse ++ acc) rest := by
  induction x generalizing acc with
  | nil => rfl
  | cons c cs ih =>
    have hc : ¬ c = ',' := h c List.mem_cons_self
    simp [splitCommas, hc, ih (fun d hd => h d (List.mem_cons_of_mem _ hd))]

/-- A number is read exactly from digits, and is their value. -/
theorem readDigits_eq_some {base : Nat} {digit : Char → Option Nat} {cs : List Char} {acc n : Nat} :
    readDigits base digit acc cs = some n ↔
      ∃ ds, List.Forall₂ (fun c d => digit c = some d) cs ds ∧ n = ds.foldl (fun a d => a * base + d) acc := by
  induction cs generalizing acc with
  | nil => simp [readDigits, eq_comm]
  | cons c cs ih =>
    unfold readDigits
    cases hc : digit c with
    | none => simp [List.forall₂_cons_left_iff, hc]
    | some d => simp [List.forall₂_cons_left_iff, hc, ih]

/-- A line's program: one request each, in order, but for empty and comment lines. -/
theorem assembleProgram_cons (l : List Char) (ls : List (List Char)) :
    assembleProgram (l :: ls) =
      (assembleLine l).bind fun r => (assembleProgram ls).map fun rs => r.toList ++ rs := by
  rw [assembleProgram]
  cases assembleLine l with
  | none => rfl
  | some r => cases r <;> cases assembleProgram ls <;> rfl

end Sys2Proof.Machine
end

