-- ==== Sys2Proof/Laws/Encode.lean ====
section
/-! SUPPORT. The bits and the fields of an assembled word (spec R41), and the operand fields read back (R42). -/

namespace Sys2Proof

theorem assembleWord_getLsbD (op : BitVec 8) (a b : Half) (k : Nat) :
    (assembleWord op a b).getLsbD k =
      if k < 16 then b.getLsbD k else if k < 32 then a.getLsbD (k - 16) else op.getLsbD (k - 32) := by
  simp only [assembleWord, BitVec.getLsbD_append]
  split
  · rfl
  · split <;> split <;> first | rfl | omega

@[simp] theorem opField_assembleWord (op : BitVec 8) (a b : Half) : opField (assembleWord op a b) = op := by
  apply BitVec.eq_of_getLsbD_eq
  intro k hk
  have h1 : ¬ (32 + k < 16) := by omega
  have h2 : ¬ (32 + k < 32) := by omega
  simp [opField, assembleWord_getLsbD, h1, h2, hk]

@[simp] theorem aField_assembleWord (op : BitVec 8) (a b : Half) : aField (assembleWord op a b) = a := by
  apply BitVec.eq_of_getLsbD_eq
  intro k hk
  have h1 : ¬ (16 + k < 16) := by omega
  have h2 : 16 + k < 32 := by omega
  simp [aField, assembleWord_getLsbD, h1, h2, hk]

@[simp] theorem bField_assembleWord (op : BitVec 8) (a b : Half) : bField (assembleWord op a b) = b := by
  apply BitVec.eq_of_getLsbD_eq
  intro k hk
  simp [bField, assembleWord_getLsbD, hk]

/-- A word is its three fields. -/
theorem assembleWord_fields (w : CmdWord) : assembleWord (opField w) (aField w) (bField w) = w := by
  apply BitVec.eq_of_getLsbD_eq
  intro k hk
  simp only [assembleWord_getLsbD, opField, aField, bField, BitVec.getLsbD_extractLsb']
  split
  · simp [*]
  · split
    · have h1 : k - 16 < 16 := by omega
      have h2 : 16 + (k - 16) = k := by omega
      simp [h1, h2]
    · have h1 : k - 32 < 8 := by omega
      have h2 : 32 + (k - 32) = k := by omega
      simp [h1, h2]

/-- A numeric operand that fits comes back from its field. -/
theorem sext16_numField {v : Int} (h : OperandFits v) : sext16 (numField v) = v := by
  unfold OperandFits at h
  rw [sext16, numField, BitVec.toInt_ofInt]
  exact Int.bmod_eq_of_le (by norm_num; omega) (by norm_num; omega)

theorem numField_sext16 (f : Half) : numField (sext16 f) = f := by
  simp [numField, sext16]

theorem sext16_fits (f : Half) : OperandFits (sext16 f) := by
  have h1 := BitVec.le_toInt f
  have h2 := BitVec.toInt_lt (x := f)
  norm_num at h1 h2
  exact ⟨h1, by unfold sext16; omega⟩

@[simp] theorem flagOf_flagField (e : Bool) : flagOf (flagField e) = e := by cases e <;> rfl

@[simp] theorem flagClean_flagField (e : Bool) : flagClean (flagField e) = true := by cases e <;> rfl

end Sys2Proof
end

