-- ==== Sys2Proof/Laws/Decode.lean ====
section
/-! SUPPORT. What the decoder accepts (spec R43, R44), said once: the form helpers and the thirteen cases. -/

namespace Sys2Proof

variable {op : BitVec 8} {a b : Half} {i : Instr}

theorem decodeTwo_ok {k : Int → Int → Instr} :
    decodeTwo k a b = .ok i ↔ i = k (sext16 a) (sext16 b) := by
  simp [decodeTwo, eq_comm]

theorem decodeOne_ok {k : Int → Instr} :
    decodeOne k a b = .ok i ↔ b = 0#16 ∧ i = k (sext16 a) := by
  unfold decodeOne
  split
  · rename_i hb
    exact ⟨fun h => ⟨hb, (Except.ok.inj h).symm⟩, fun h => congrArg _ h.2.symm⟩
  · rename_i hb
    exact ⟨fun h => (nomatch h), fun h => absurd h.1 hb⟩

theorem decodeFlag_ok {k : Bool → Instr} :
    decodeFlag k a b = .ok i ↔ b = 0#16 ∧ flagClean a = true ∧ i = k (flagOf a) := by
  unfold decodeFlag
  split
  · rename_i hb
    split
    · rename_i ha
      exact ⟨fun h => ⟨hb, ha, (Except.ok.inj h).symm⟩, fun h => congrArg _ h.2.2.symm⟩
    · rename_i ha
      exact ⟨fun h => (nomatch h), fun h => absurd h.2.1 ha⟩
  · rename_i hb
    exact ⟨fun h => (nomatch h), fun h => absurd h.1 hb⟩

theorem decodeFlags_ok {k : Bool → Bool → Instr} :
    decodeFlags k a b = .ok i ↔ flagClean a = true ∧ flagClean b = true ∧ i = k (flagOf a) (flagOf b) := by
  unfold decodeFlags
  split
  · rename_i h2
    rw [Bool.and_eq_true] at h2
    exact ⟨fun h => ⟨h2.1, h2.2, (Except.ok.inj h).symm⟩, fun h => congrArg _ h.2.2.symm⟩
  · rename_i h2
    rw [Bool.and_eq_true] at h2
    exact ⟨fun h => (nomatch h), fun h => absurd ⟨h.1, h.2.1⟩ h2⟩

/-- The thirteen ways a word's fields are a command. -/
theorem decodeFields_ok (h : decodeFields op a b = .ok i) :
    (op = 0x10#8 ∧ i = .setVol (sext16 a) (sext16 b)) ∨
    (op = 0x11#8 ∧ b = 0#16 ∧ i = .setVolL (sext16 a)) ∨
    (op = 0x12#8 ∧ b = 0#16 ∧ i = .setVolR (sext16 a)) ∨
    (op = 0x20#8 ∧ i = .setAtt (sext16 a) (sext16 b)) ∨
    (op = 0x21#8 ∧ b = 0#16 ∧ i = .setAttL (sext16 a)) ∨
    (op = 0x22#8 ∧ b = 0#16 ∧ i = .setAttR (sext16 a)) ∨
    (op = 0x30#8 ∧ i = .setGain (sext16 a) (sext16 b)) ∨
    (op = 0x31#8 ∧ b = 0#16 ∧ i = .setGainL (sext16 a)) ∨
    (op = 0x32#8 ∧ b = 0#16 ∧ i = .setGainR (sext16 a)) ∨
    (op = 0x40#8 ∧ flagClean a = true ∧ flagClean b = true ∧ i = .mute (flagOf a) (flagOf b)) ∨
    (op = 0x50#8 ∧ b = 0#16 ∧ flagClean a = true ∧ i = .setZc (flagOf a)) ∨
    (op = 0x51#8 ∧ b = 0#16 ∧ flagClean a = true ∧ i = .setAttLink (flagOf a)) ∨
    (op = 0x52#8 ∧ b = 0#16 ∧ flagClean a = true ∧ i = .setGainLink (flagOf a)) := by
  unfold decodeFields at h
  by_cases h1 : op = 0x10#8
  · rw [if_pos h1] at h
    exact .inl ⟨h1, decodeTwo_ok.mp h⟩
  rw [if_neg h1] at h; clear h1
  by_cases h1 : op = 0x11#8
  · rw [if_pos h1] at h
    exact .inr (.inl ⟨h1, decodeOne_ok.mp h⟩)
  rw [if_neg h1] at h; clear h1
  by_cases h1 : op = 0x12#8
  · rw [if_pos h1] at h
    exact .inr (.inr (.inl ⟨h1, decodeOne_ok.mp h⟩))
  rw [if_neg h1] at h; clear h1
  by_cases h1 : op = 0x20#8
  · rw [if_pos h1] at h
    exact .inr (.inr (.inr (.inl ⟨h1, decodeTwo_ok.mp h⟩)))
  rw [if_neg h1] at h; clear h1
  by_cases h1 : op = 0x21#8
  · rw [if_pos h1] at h
    exact .inr (.inr (.inr (.inr (.inl ⟨h1, decodeOne_ok.mp h⟩))))
  rw [if_neg h1] at h; clear h1
  by_cases h1 : op = 0x22#8
  · rw [if_pos h1] at h
    exact .inr (.inr (.inr (.inr (.inr (.inl ⟨h1, decodeOne_ok.mp h⟩)))))
  rw [if_neg h1] at h; clear h1
  by_cases h1 : op = 0x30#8
  · rw [if_pos h1] at h
    exact .inr (.inr (.inr (.inr (.inr (.inr (.inl ⟨h1, decodeTwo_ok.mp h⟩))))))
  rw [if_neg h1] at h; clear h1
  by_cases h1 : op = 0x31#8
  · rw [if_pos h1] at h
    exact .inr (.inr (.inr (.inr (.inr (.inr (.inr (.inl ⟨h1, decodeOne_ok.mp h⟩)))))))
  rw [if_neg h1] at h; clear h1
  by_cases h1 : op = 0x32#8
  · rw [if_pos h1] at h
    exact .inr (.inr (.inr (.inr (.inr (.inr (.inr (.inr (.inl ⟨h1, decodeOne_ok.mp h⟩))))))))
  rw [if_neg h1] at h; clear h1
  by_cases h1 : op = 0x40#8
  · rw [if_pos h1] at h
    exact .inr (.inr (.inr (.inr (.inr (.inr (.inr (.inr (.inr (.inl ⟨h1, decodeFlags_ok.mp h⟩)))))))))
  rw [if_neg h1] at h; clear h1
  by_cases h1 : op = 0x50#8
  · rw [if_pos h1] at h
    exact .inr (.inr (.inr (.inr (.inr (.inr (.inr (.inr (.inr (.inr (.inl ⟨h1, decodeFlag_ok.mp h⟩))))))))))
  rw [if_neg h1] at h; clear h1
  by_cases h1 : op = 0x51#8
  · rw [if_pos h1] at h
    exact .inr (.inr (.inr (.inr (.inr (.inr (.inr (.inr (.inr (.inr (.inr (.inl ⟨h1, decodeFlag_ok.mp h⟩)))))))))))
  rw [if_neg h1] at h; clear h1
  by_cases h1 : op = 0x52#8
  · rw [if_pos h1] at h
    exact .inr (.inr (.inr (.inr (.inr (.inr (.inr (.inr (.inr (.inr (.inr (.inr (⟨h1, decodeFlag_ok.mp h⟩))))))))))))
  rw [if_neg h1] at h; clear h1
  cases h

/-- The same of a whole word. -/
theorem decode_ok {w : CmdWord} (h : decode w = .ok i) :
    decodeFields (opField w) (aField w) (bField w) = .ok i := h

/-- R44 (c): a boolean field is clean exactly when it is 0 or 1. -/
theorem flagClean_iff (f : Half) : flagClean f = true ↔ f.toNat < 2 := by
  have h := f.isLt
  simp only [flagClean, beq_iff_eq, ← BitVec.toNat_inj, BitVec.extractLsb'_toNat]
  simp [Nat.shiftRight_eq_div_pow]
  omega

/-- A clean boolean field is the field of its flag. -/
theorem flagField_flagOf {f : Half} (h : flagClean f = true) : flagField (flagOf f) = f := by
  have hf : f = 0#16 ∨ f = 1#16 := by
    have h2 := (flagClean_iff f).1 h
    rcases (by omega : f.toNat = 0 ∨ f.toNat = 1) with h | h
    · exact .inl (BitVec.eq_of_toNat_eq (by simp [h]))
    · exact .inr (BitVec.eq_of_toNat_eq (by simp [h]))
  rcases hf with rfl | rfl <;> rfl

end Sys2Proof
end

