-- ==== Sys2Proof/Laws/State.lean ====
section
/-! SUPPORT. One lemma per field per update of a core's state and of the system's. -/

namespace Sys2Proof.Machine

section Transfer
variable (c : CoreInst) (sel : RegSel) (d : Byte)

@[simp] theorem CoreInst.transfer_chipAddr : (c.transfer sel d).chipAddr = c.chipAddr := rfl
@[simp] theorem CoreInst.transfer_zc : (c.transfer sel d).zc = c.zc := rfl
@[simp] theorem CoreInst.transfer_attLink : (c.transfer sel d).attLink = c.attLink := rfl
@[simp] theorem CoreInst.transfer_gainLink : (c.transfer sel d).gainLink = c.gainLink := rfl
@[simp] theorem CoreInst.transfer_phase : (c.transfer sel d).phase = c.phase := rfl
@[simp] theorem CoreInst.transfer_csN : (c.transfer sel d).csN = c.csN := rfl
@[simp] theorem CoreInst.transfer_live : (c.transfer sel d).live = c.live := rfl
@[simp] theorem CoreInst.transfer_pending :
    (c.transfer sel d).pending = c.pending ++ [mkFrame sel d c.chipAddr] := rfl

end Transfer

section Accepted
variable (s : State) (c : CoreInst)

@[simp] theorem State.accepted_insts : (s.accepted c).insts = s.insts.set s.port c := rfl
@[simp] theorem State.accepted_owner : (s.accepted c).owner = s.owner := rfl
@[simp] theorem State.accepted_trace : (s.accepted c).trace = s.trace := rfl
@[simp] theorem State.accepted_pc : (s.accepted c).pc = s.pc + 1 := rfl
@[simp] theorem State.accepted_host : (s.accepted c).host = s.host.tail := rfl
@[simp] theorem State.accepted_port : (s.accepted c).port = s.port := rfl
@[simp] theorem State.accepted_turns : (s.accepted c).turns = s.turns := rfl

end Accepted

section Emit
variable (s : State) (i : Nat) (c : CoreInst) (e : BusEvent)

@[simp] theorem State.emit_insts : (s.emit i c e).insts = s.insts.set i c := rfl
@[simp] theorem State.emit_owner : (s.emit i c e).owner = s.owner := rfl
@[simp] theorem State.emit_trace : (s.emit i c e).trace = s.trace ++ [e] := rfl
@[simp] theorem State.emit_pc : (s.emit i c e).pc = s.pc := rfl
@[simp] theorem State.emit_host : (s.emit i c e).host = s.host := rfl
@[simp] theorem State.emit_port : (s.emit i c e).port = s.port := rfl
@[simp] theorem State.emit_turns : (s.emit i c e).turns = s.turns := rfl

end Emit

end Sys2Proof.Machine
end

