-- ==== Sys2Proof/Laws/Framer.lean ====
section
/-! SUPPORT. What a framer's or the transport's turn can do, and the laws of the frames read off a trace. -/

namespace Sys2Proof.Machine

section Turns
variable {s t : State} {i : Nat} {c : CoreInst}

/-- Everything a framer's own step can do (R83, R84, R87, R88). -/
theorem State.framerStep_some (h : s.framerStep i c = some t) :
    (c.phase = .idle ∧ c.pending ≠ [] ∧ s.owner = none ∧
      t = { s.emit i { c with phase := .acquired } (.acquire i Config.bus) with owner := some i }) ∨
    (c.phase = .acquired ∧ t = s.emit i { c with phase := .selected, csN := false } (.csLow i)) ∨
    (c.phase = .sentAddr ∧ t = s.emit i { c with phase := .deselected, csN := true } (.csHigh i)) ∨
    (c.phase = .deselected ∧
      t = { s.emit i { c with phase := .idle, pending := c.pending.tail } (.release i) with owner := none }) := by
  unfold State.framerStep at h
  cases hp : c.phase with
  | idle =>
    simp only [hp, State.acquire] at h
    split at h
    · rename_i hc
      exact .inl ⟨rfl, hc.2.1, hc.2.2, (Option.some.inj h).symm⟩
    · cases h
  | acquired =>
    simp only [hp, State.select, if_true] at h
    exact .inr (.inl ⟨rfl, (Option.some.inj h).symm⟩)
  | selected => simp [hp] at h
  | sentData => simp [hp] at h
  | sentAddr =>
    simp only [hp, State.deselect, if_true] at h
    exact .inr (.inr (.inl ⟨rfl, (Option.some.inj h).symm⟩))
  | deselected =>
    simp only [hp, State.release, if_true] at h
    exact .inr (.inr (.inr ⟨rfl, (Option.some.inj h).symm⟩))

/-- Everything the transport's step can do (R85, R86). -/
theorem State.transportStep_some (h : s.transportStep i c = some t) :
    ∃ f fs, c.pending = f :: fs ∧
      ((c.phase = .selected ∧ t = s.emit i { c with phase := .sentData } (.byte i f.data)) ∨
       (c.phase = .sentData ∧ t = s.emit i { c with phase := .sentAddr } (.byte i f.addr))) := by
  unfold State.transportStep at h
  cases hf : c.pending with
  | nil => cases hp : c.phase <;> simp [hp, hf, State.sendData, State.sendAddr] at h
  | cons f fs =>
    refine ⟨f, fs, rfl, ?_⟩
    cases hp : c.phase with
    | selected =>
      simp only [hp, hf, State.sendData, if_true] at h
      exact .inl ⟨rfl, (Option.some.inj h).symm⟩
    | sentData =>
      simp only [hp, hf, State.sendAddr, if_true] at h
      exact .inr ⟨rfl, (Option.some.inj h).symm⟩
    | idle => simp [hp] at h
    | acquired => simp [hp] at h
    | sentAddr => simp [hp] at h
    | deselected => simp [hp] at h

/-- A turn is a wait or the transition that was enabled. -/
theorem State.turnOf_cases (s : State) (i : Nat) (move : State → Nat → CoreInst → Option State) :
    s.turnOf i move = s ∨
    ∃ c t, s.insts[i]? = some c ∧ move s i c = some t ∧ s.turnOf i move = t := by
  unfold State.turnOf
  cases hc : s.insts[i]? with
  | none => exact .inl rfl
  | some c =>
    cases hm : move s i c with
    | none => exact .inl (by simp [hm])
    | some t => exact .inr ⟨c, t, rfl, hm, by simp [hm]⟩

end Turns

section Trace

/-- A whole frame on the bus reads off as that frame. -/
@[simp] theorem framesOn_wire (i : Nat) (f : Frame) (rest : List BusEvent) :
    framesOn (wire i f ++ rest) = (i, f) :: framesOn rest := rfl

/-- Whole frames followed by anything read off as those frames, then the rest. -/
theorem framesOn_flatMap_wire (ps : List (Nat × Frame)) (rest : List BusEvent) :
    framesOn (ps.flatMap (fun p => wire p.1 p.2) ++ rest) = ps ++ framesOn rest := by
  induction ps with
  | nil => rfl
  | cons p ps ih => simp [ih, List.append_assoc]

/-- The start of a frame, less than all six of its events, is no frame. -/
theorem framesOn_take_wire (i : Nat) (f : Frame) {n : Nat} (h : n ≤ 5) : framesOn ((wire i f).take n) = [] := by
  match n, h with
  | 0, _ => rfl
  | 1, _ => rfl
  | 2, _ => rfl
  | 3, _ => rfl
  | 4, _ => rfl
  | 5, _ => rfl

theorem Phase.progress_le (p : Phase) : p.progress ≤ 5 := by cases p <;> decide

end Trace

end Sys2Proof.Machine
end

