-- ==== Sys2Proof/Laws/Memory.lean ====
section
/-! SUPPORT. The laws of the target register space: a read after a write, and the canonical form. -/

namespace Sys2Proof.Machine

theorem Memory.read_write_same (m : Memory) (a : Nat) (b : Byte) : (m.write a b).read a = some b := by
  induction m with
  | nil => simp [Memory.write, Memory.read]
  | cons p rest ih =>
    obtain ⟨k, c⟩ := p
    simp only [Memory.write]
    split
    · simp [Memory.read]
    · split
      · simp [Memory.read]
      · rename_i _ hne
        have : k ≠ a := fun h => hne h.symm
        simp [Memory.read, this, ih]

theorem Memory.read_write_other (m : Memory) {a a' : Nat} (b : Byte) (h : a' ≠ a) :
    (m.write a b).read a' = m.read a' := by
  induction m with
  | nil => simp [Memory.write, Memory.read, h.symm]
  | cons p rest ih =>
    obtain ⟨k, c⟩ := p
    simp only [Memory.write]
    split
    · simp [Memory.read, h.symm]
    · split
      · rename_i _ hk
        subst hk
        simp [Memory.read, h.symm]
      · simp only [Memory.read, ih]

theorem Memory.risesFrom_write (m : Memory) {lo a : Nat} (b : Byte) (ha : lo < a)
    (h : m.risesFrom lo = true) : (m.write a b).risesFrom lo = true := by
  induction m generalizing lo with
  | nil => simp [Memory.write, Memory.risesFrom, ha]
  | cons p rest ih =>
    obtain ⟨k, c⟩ := p
    simp only [Memory.risesFrom, Bool.and_eq_true, decide_eq_true_eq] at h
    simp only [Memory.write]
    split
    · rename_i hlt
      simp [Memory.risesFrom, ha, hlt, h.2]
    · split
      · rename_i _ hk
        subst hk
        simp [Memory.risesFrom, ha, h.2]
      · rename_i h1 h2
        have hka : k < a := by omega
        simp [Memory.risesFrom, h.1, ih hka h.2]

/-- A write keeps the canonical form. -/
theorem Memory.wf_write (m : Memory) (a : Nat) (b : Byte) (h : m.wf = true) : (m.write a b).wf = true := by
  cases m with
  | nil => rfl
  | cons p rest =>
    obtain ⟨k, c⟩ := p
    simp only [Memory.wf] at h
    simp only [Memory.write]
    split
    · rename_i hlt
      simp [Memory.wf, Memory.risesFrom, hlt, h]
    · split
      · rename_i _ hk
        subst hk
        simpa [Memory.wf] using h
      · rename_i h1 h2
        have hka : k < a := by omega
        simpa [Memory.wf] using Memory.risesFrom_write rest b hka h

theorem Memory.wf_afterFrames (m : Memory) (fs : List (Nat × Frame)) (h : m.wf = true) :
    (m.afterFrames fs).wf = true := by
  induction fs generalizing m with
  | nil => exact h
  | cons p ps ih => exact ih _ (Memory.wf_write m _ _ h)

/-- The target register space of every state is in canonical form. -/
theorem State.space_wf (s : State) : Memory.wf s.space = true := Memory.wf_afterFrames [] _ rfl

theorem Memory.afterFrames_append (m : Memory) (fs gs : List (Nat × Frame)) :
    m.afterFrames (fs ++ gs) = (m.afterFrames fs).afterFrames gs := by
  simp [Memory.afterFrames]

end Sys2Proof.Machine
end

