-- ==== Sys2Proof/Laws/Ops.lean ====
section
/-! SUPPORT. What the shared operations can do: the acceptance gate, the reset input, the write helpers; and the
rule each command runs on its core when it is accepted. -/

namespace Sys2Proof.Machine

theorem CoreInst.cmdReady_iff (c : CoreInst) :
    c.cmdReady = true ↔ c.live = true ∧ c.phase = .idle ∧ c.pending = [] := by
  simp [CoreInst.cmdReady, and_assoc]

theorem CoreInst.resetAdmitted_iff (c : CoreInst) :
    c.resetAdmitted = true ↔ c.live = false ∨ (c.phase = .idle ∧ c.pending = []) := by
  simp [CoreInst.resetAdmitted]

section Gate
variable {s t : State} {c : CoreInst} {k : CoreInst → Host.Outcome State Fault Refusal}
  {rule : CoreInst → CoreInst}

theorem State.gate_notLive (h : s.insts[s.port]? = some c) (hl : c.live = false) :
    s.gate k = .refused .notConstructed := by
  simp [State.gate, h, hl]

theorem State.gate_busy (h : s.insts[s.port]? = some c) (hl : c.live = true) (hr : c.cmdReady = false) :
    s.gate k = .next s := by
  simp [State.gate, h, hl, hr]

theorem State.gate_ready (h : s.insts[s.port]? = some c) (hr : c.cmdReady = true) : s.gate k = k c := by
  have hl := (c.cmdReady_iff.mp hr).1
  simp [State.gate, h, hl, hr]

/-- Everything the gate can answer. -/
theorem State.gate_cases (s : State) (k : CoreInst → Host.Outcome State Fault Refusal) :
    (s.insts[s.port]? = none ∧ s.gate k = .refused .noSuchCore) ∨
    ∃ c, s.insts[s.port]? = some c ∧
      ((c.live = false ∧ s.gate k = .refused .notConstructed) ∨
       (c.live = true ∧ c.cmdReady = false ∧ s.gate k = .next s) ∨
       (c.cmdReady = true ∧ s.gate k = k c)) := by
  cases h : s.insts[s.port]? with
  | none => exact .inl ⟨rfl, by simp [State.gate, h]⟩
  | some c =>
    refine .inr ⟨c, rfl, ?_⟩
    cases hl : c.live with
    | false => exact .inl ⟨rfl, State.gate_notLive h hl⟩
    | true =>
      cases hr : c.cmdReady with
      | false => exact .inr (.inl ⟨rfl, rfl, State.gate_busy h hl hr⟩)
      | true => exact .inr (.inr ⟨rfl, State.gate_ready h hr⟩)

/-- If acceptance answers next, the core was busy and nothing changed, or its rule ran. -/
theorem State.accept_next (h : s.accept rule = .next t) :
    (t = s ∧ ∃ c, s.insts[s.port]? = some c ∧ c.live = true ∧ c.cmdReady = false) ∨
    ∃ c, s.insts[s.port]? = some c ∧ c.cmdReady = true ∧ t = s.accepted (rule c) := by
  unfold State.accept at h
  rcases s.gate_cases (fun c => .next (s.accepted (rule c))) with ⟨_, hg⟩ | ⟨c, hc, ⟨_, hg⟩ | ⟨hl, hr, hg⟩ | ⟨hr, hg⟩⟩
  · simp [hg] at h
  · simp [hg] at h
  · rw [hg] at h
    exact .inl ⟨(Host.Outcome.next.inj h).symm, c, hc, hl, hr⟩
  · rw [hg] at h
    exact .inr ⟨c, hc, hr, (Host.Outcome.next.inj h).symm⟩

theorem State.accept_ready (h : s.insts[s.port]? = some c) (hr : c.cmdReady = true) :
    s.accept rule = .next (s.accepted (rule c)) :=
  State.gate_ready h hr

end Gate

/-- If the reset input answers next, the core was not mid-command and is constructed anew. -/
theorem State.resetCore_next {s t : State} {cfg : Int} (h : s.resetCore cfg = .next t) :
    ∃ c, s.insts[s.port]? = some c ∧ c.resetAdmitted = true ∧
      t = { s with insts := s.insts.set s.port (CoreInst.constructed cfg), host := s.host.tail } := by
  unfold State.resetCore at h
  cases hc : s.insts[s.port]? with
  | none => simp [hc] at h
  | some c =>
    cases hr : c.resetAdmitted with
    | false => simp [hc, hr] at h
    | true =>
      simp only [hc, hr, if_true] at h
      exact ⟨c, rfl, hr, (Host.Outcome.next.inj h).symm⟩

/-- `resetCore` on `State.reset`'s own core gives that core again: `State.reset` is R107 with
`cfg_chip_addr` = 0. -/
theorem State.reset_eq_constructed : State.reset.insts = [CoreInst.constructed 0] := by decide

section Writes
variable (c : CoreInst) (d : Byte)

/-- A write helper changes the pending list only (R68). -/
theorem CoreInst.writeAttL_eq :
    c.writeAttL d = { c with pending := c.pending ++ [mkFrame .attL d c.chipAddr] } := rfl

theorem CoreInst.writeGainL_eq :
    c.writeGainL d = { c with pending := c.pending ++ [mkFrame .gainL d c.chipAddr] } := rfl

/-- R67: the right attenuation write is there unless attenuation is linked. -/
theorem CoreInst.writeAttR_eq :
    c.writeAttR d =
      { c with pending := c.pending ++ if c.attLink then [] else [mkFrame .attR d c.chipAddr] } := by
  unfold CoreInst.writeAttR CoreInst.transfer
  split <;> simp

/-- R67: the right gain write is there unless gain is linked. -/
theorem CoreInst.writeGainR_eq :
    c.writeGainR d =
      { c with pending := c.pending ++ if c.gainLink then [] else [mkFrame .gainR d c.chipAddr] } := by
  unfold CoreInst.writeGainR CoreInst.transfer
  split <;> simp

theorem CoreInst.writeState_eq :
    c.writeState = { c with pending := c.pending ++ [mkFrame .state (packState c) c.chipAddr] } := rfl

end Writes

/-- The rule each command runs on its core at acceptance. -/
def ruleOf : Instr → CoreInst → CoreInst
  | .setVol l r, c => (((c.writeAttL (encodeVolume l).1).writeGainL (encodeVolume l).2).writeAttR
      (encodeVolume r).1).writeGainR (encodeVolume r).2
  | .setVolL v, c => (c.writeAttL (encodeVolume v).1).writeGainL (encodeVolume v).2
  | .setVolR v, c => (c.writeAttR (encodeVolume v).1).writeGainR (encodeVolume v).2
  | .setAtt l r, c => (c.writeAttL (encodeAttenuation l)).writeAttR (encodeAttenuation r)
  | .setAttL v, c => c.writeAttL (encodeAttenuation v)
  | .setAttR v, c => c.writeAttR (encodeAttenuation v)
  | .setGain l r, c => (c.writeGainL (encodeGain l)).writeGainR (encodeGain r)
  | .setGainL g, c => c.writeGainL (encodeGain g)
  | .setGainR g, c => c.writeGainR (encodeGain g)
  | .mute ml mr, c =>
    let left := if ml then c.writeAttL muteCode else c
    if mr then left.writeAttR muteCode else left
  | .setZc e, c => CoreInst.writeState { c with zc := e }
  | .setAttLink e, c => CoreInst.writeState { c with attLink := e }
  | .setGainLink e, c => CoreInst.writeState { c with gainLink := e }

/-- Every command is its rule, run at acceptance. -/
theorem exec_eq_accept (i : Instr) (s : State) : exec i s = s.accept (ruleOf i) := by
  cases i <;> rfl

end Sys2Proof.Machine
end

