-- ==== Sys2Proof/Laws/PerInstr.lean ====
section
/-! SUPPORT. Statements for all commands, one lemma per constructor of `Instr`. -/

namespace Sys2Proof.Laws.OpcodeByte

/-- R41, R43: bits 39..32 of a command's word are its opcode. -/
def Statement (i : Instr) : Prop := opField (encode i) = opcodeOf i

theorem setVol (l r : Int) : Statement (.setVol l r) := opField_assembleWord ..
theorem setVolL (v : Int) : Statement (.setVolL v) := opField_assembleWord ..
theorem setVolR (v : Int) : Statement (.setVolR v) := opField_assembleWord ..
theorem setAtt (l r : Int) : Statement (.setAtt l r) := opField_assembleWord ..
theorem setAttL (v : Int) : Statement (.setAttL v) := opField_assembleWord ..
theorem setAttR (v : Int) : Statement (.setAttR v) := opField_assembleWord ..
theorem setGain (l r : Int) : Statement (.setGain l r) := opField_assembleWord ..
theorem setGainL (g : Int) : Statement (.setGainL g) := opField_assembleWord ..
theorem setGainR (g : Int) : Statement (.setGainR g) := opField_assembleWord ..
theorem mute (ml mr : Bool) : Statement (.mute ml mr) := opField_assembleWord ..
theorem setZc (enabled : Bool) : Statement (.setZc enabled) := opField_assembleWord ..
theorem setAttLink (enabled : Bool) : Statement (.setAttLink enabled) := opField_assembleWord ..
theorem setGainLink (enabled : Bool) : Statement (.setGainLink enabled) := opField_assembleWord ..

end Sys2Proof.Laws.OpcodeByte
end

