-- ==== Sys2Proof/Laws/Step.lean ====
section
/-! SUPPORT. Everything one step can do, said once. -/

namespace Sys2Proof.Machine

/-- What a host's turn can answer next: nothing to present, a busy core, an accepted command, or an admitted
reset. -/
theorem State.present_next {s t : State} (h : s.present = .next t) :
    (s.host = [] ∧ t = s) ∨
    (∃ it items w c, s.host = it :: items ∧ it.request = .command w ∧ s.insts[it.target]? = some c ∧
      c.live = true ∧ c.cmdReady = false ∧ t = { s with port := it.target }) ∨
    (∃ it items w i c, s.host = it :: items ∧ it.request = .command w ∧ decode w = .ok i ∧
      s.insts[it.target]? = some c ∧ c.cmdReady = true ∧
      t = State.accepted { s with port := it.target } (ruleOf i c)) ∨
    (∃ it items cfg c, s.host = it :: items ∧ it.request = .reset cfg ∧ s.insts[it.target]? = some c ∧
      c.resetAdmitted = true ∧
      t = { s with
        port := it.target, insts := s.insts.set it.target (CoreInst.constructed cfg), host := s.host.tail }) := by
  unfold State.present at h
  cases hh : s.host with
  | nil =>
    simp only [hh] at h
    exact .inl ⟨rfl, (Host.Outcome.next.inj h).symm⟩
  | cons it items =>
    simp only [hh] at h
    cases hr : it.request with
    | reset cfg =>
      simp only [hr] at h
      obtain ⟨c, hc, ha, rfl⟩ := State.resetCore_next h
      exact .inr (.inr (.inr ⟨it, items, cfg, c, rfl, hr, hc, ha, rfl⟩))
    | command w =>
      simp only [hr, State.command] at h
      cases hd : decode w with
      | ok i =>
        simp only [hd, exec_eq_accept] at h
        rcases State.accept_next h with ⟨rfl, c, hc, hl, hb⟩ | ⟨c, hc, hb, rfl⟩
        · exact .inr (.inl ⟨it, items, w, c, rfl, hr, hc, hl, hb, by simp⟩)
        · exact .inr (.inr (.inl ⟨it, items, w, i, c, rfl, hr, hd, hc, hb, by simp⟩))
      | error r =>
        simp only [hd, State.refuseReserved] at h
        rcases State.gate_cases { s with host := it :: items, port := it.target }
            (fun _ => .refused .reservedEncoding) with ⟨_, hg⟩ | ⟨c, hc, ⟨_, hg⟩ | ⟨hl, hb, hg⟩ | ⟨_, hg⟩⟩
        · simp_all
        · simp_all
        · refine .inr (.inl ⟨it, items, w, c, rfl, hr, hc, hl, hb, ?_⟩)
          simp_all
        · simp_all

/-- A word put where the host presents it next is the very next step's command. -/
theorem step_withFetchWord {s : State} {nbits w : Nat} {i : Instr}
    (h : decode (tableWord nbits w) = .ok i) :
    step (s.withFetchWord nbits w) =
      exec i { s with host := { target := s.port, request := .command (tableWord nbits w) } :: s.host } := by
  simp only [step, State.withFetchWord, State.presenting, State.fire, State.present, State.command, h]

/-- What one step can answer next: the schedule is used up, or the head agent's move. -/
theorem step_next {s t : State} (h : step s = .next t) :
    (s.turns = [] ∧ t = s) ∨
    (∃ rest, s.turns = .host :: rest ∧ State.present { s with turns := rest } = .next t) ∨
    (∃ i rest, s.turns = .framer i :: rest ∧ t = State.turnOf { s with turns := rest } i State.framerStep) ∨
    (∃ i rest, s.turns = .transport i :: rest ∧
      t = State.turnOf { s with turns := rest } i State.transportStep) := by
  unfold step at h
  cases ht : s.turns with
  | nil =>
    simp only [ht, State.noTurn] at h
    split at h
    · cases h
    · exact .inl ⟨rfl, (Host.Outcome.next.inj h).symm⟩
  | cons a rest =>
    simp only [ht] at h
    cases a with
    | host => exact .inr (.inl ⟨rest, rfl, h⟩)
    | framer i => exact .inr (.inr (.inl ⟨i, rest, rfl, (Host.Outcome.next.inj h).symm⟩))
    | transport i => exact .inr (.inr (.inr ⟨i, rest, rfl, (Host.Outcome.next.inj h).symm⟩))

end Sys2Proof.Machine
end

