-- ==== Sys2Proof/Laws/Run.lean ====
section
/-! SUPPORT. Runs of several steps: one step more, and one run after another. -/

namespace Sys2Proof.Machine

theorem State.run_zero (s : State) : s.run 0 = .next s := rfl

theorem State.run_succ {s t : State} (n : Nat) (h : step s = .next t) : s.run (n + 1) = t.run n := by
  have h' : Sys2Proof.core.step s = .next t := h
  simp only [State.run, Host.Core.run]
  rw [h']

/-- A run of at least one step that answers next begins with a step that does. -/
theorem State.run_succ_next {s t : State} {n : Nat} (h : s.run (n + 1) = .next t) :
    ∃ u, step s = .next u ∧ u.run n = .next t := by
  cases hs : step s with
  | next u => exact ⟨u, rfl, by rw [← h, State.run_succ n hs]⟩
  | fault e =>
    have hs' : Sys2Proof.core.step s = .fault e := hs
    simp only [State.run, Host.Core.run] at h
    rw [hs'] at h
    cases h
  | refused e =>
    have hs' : Sys2Proof.core.step s = .refused e := hs
    simp only [State.run, Host.Core.run] at h
    rw [hs'] at h
    cases h

theorem State.run_add {s t : State} {m : Nat} (n : Nat) (h : s.run m = .next t) :
    s.run (m + n) = t.run n := by
  induction m generalizing s with
  | zero =>
    cases h
    rw [Nat.zero_add]
  | succ m ih =>
    obtain ⟨u, hu, hr⟩ := State.run_succ_next h
    rw [Nat.succ_add, State.run_succ _ hu, ih hr]

end Sys2Proof.Machine
end

