-- ==== Sys2Proof/Tests/Slice0.lean ====
section
/-! SUPPORT. The model's own tests. Expected results come from the spec: its encodings (R43), its test vectors
(`95_test_vectors.md`, numbered as there) and its rules. After them, witnesses: for each statement with
hypotheses, a concrete state and operands that meet them together. -/

namespace Sys2Proof.Machine.Tests

/-! ### WellFormed refuses each ill-formed operand -/

theorem test_illformed_setVol : ¬ (Instr.setVol 32768 0).WellFormed ∧ ¬ (Instr.setVol 0 (-32769)).WellFormed := by decide
theorem test_illformed_setVolL : ¬ (Instr.setVolL 32768).WellFormed := by decide
theorem test_illformed_setVolR : ¬ (Instr.setVolR (-32769)).WellFormed := by decide
theorem test_illformed_setAtt : ¬ (Instr.setAtt 32768 0).WellFormed ∧ ¬ (Instr.setAtt 0 (-32769)).WellFormed := by decide
theorem test_illformed_setAttL : ¬ (Instr.setAttL 32768).WellFormed := by decide
theorem test_illformed_setAttR : ¬ (Instr.setAttR (-32769)).WellFormed := by decide
theorem test_illformed_setGain : ¬ (Instr.setGain 32768 0).WellFormed ∧ ¬ (Instr.setGain 0 (-32769)).WellFormed := by decide
theorem test_illformed_setGainL : ¬ (Instr.setGainL 32768).WellFormed := by decide
theorem test_illformed_setGainR : ¬ (Instr.setGainR (-32769)).WellFormed := by decide
theorem test_wellformed_bounds : (Instr.setVol 32767 (-32768)).WellFormed ∧ (Instr.mute true true).WellFormed := by decide

/-! ### Decoding: each word written out bit by bit, OP then A then B (R41, R43) -/

theorem test_decode_setVol :
    decode 0b0001000011111111111111011111111111111001#40 = .ok (.setVol (-3) (-7)) := by rfl
theorem test_decode_setVolL :
    decode 0b0001000111111111111111110000000000000000#40 = .ok (.setVolL (-1)) := by rfl
theorem test_decode_setVolR :
    decode 0b0001001011111110010000100000000000000000#40 = .ok (.setVolR (-446)) := by rfl
theorem test_decode_setAtt :
    decode 0b0010000000000000000001011111111011010100#40 = .ok (.setAtt 5 (-300)) := by rfl
theorem test_decode_setAttL :
    decode 0b0010000111111111001000000000000000000000#40 = .ok (.setAttL (-224)) := by rfl
theorem test_decode_setAttR :
    decode 0b0010001011111111111101100000000000000000#40 = .ok (.setAttR (-10)) := by rfl
theorem test_decode_setGain :
    decode 0b0011000000000000010001101111111111111011#40 = .ok (.setGain 70 (-5)) := by rfl
theorem test_decode_setGainL :
    decode 0b0011000100000000001111110000000000000000#40 = .ok (.setGainL 63) := by rfl
theorem test_decode_setGainR :
    decode 0b0011001000000000010000000000000000000000#40 = .ok (.setGainR 64) := by rfl
theorem test_decode_mute :
    decode 0b0100000000000000000000010000000000000000#40 = .ok (.mute true false) := by rfl
theorem test_decode_setZc :
    decode 0b0101000000000000000000010000000000000000#40 = .ok (.setZc true) := by rfl
theorem test_decode_setAttLink :
    decode 0b0101000100000000000000000000000000000000#40 = .ok (.setAttLink false) := by rfl
theorem test_decode_setGainLink :
    decode 0b0101001000000000000000010000000000000000#40 = .ok (.setGainLink true) := by rfl

/-- §2.5: the nine reserved words. -/
theorem test_reserved_words :
    [0x0000000000#40, 0x1300000000#40, 0xFFFFFFFFFF#40].all (fun w => decodeTableWord 40 w.toNat == none) ∧
    [0x11FFFF0001#40, 0x2200008000#40, 0x4000020000#40].all (fun w => decodeTableWord 40 w.toNat == none) ∧
    [0x4000000003#40, 0x5000010001#40, 0x5080010000#40].all (fun w => decodeTableWord 40 w.toNat == none) := by
  decide

/-! ### Assembler text (R45, R46) -/

theorem test_assemble_examples :
    assembleLine "SETVOL -3, -7".toList = some (some (.command 0x10FFFDFFF9#40)) ∧
    assembleLine "SETATT_R -10 ; left alone".toList = some (some (.command 0x22FFF60000#40)) ∧
    assembleLine "MUTE 1, 0".toList = some (some (.command 0x4000010000#40)) ∧
    assembleLine "SETGAINLINK 1".toList = some (some (.command 0x5200010000#40)) := by decide
theorem test_assemble_hex_field :
    assembleLine "SETATT_L 0xFF20".toList = some (some (.command 0x21FF200000#40)) := by decide
theorem test_assemble_reset :
    assembleLine ".reset -1".toList = some (some (.reset (-1))) ∧
    assembleLine "; a comment".toList = some none := by decide
theorem test_assemble_pseudo :
    assembleLine "SETVOLB -4".toList = some (some (.command 0x10FFFCFFFC#40)) ∧
    assembleLine "MUTER".toList = some (some (.command 0x4000000001#40)) ∧
    assembleLine "NOP".toList = some (some (.command 0x4000000000#40)) := by decide
theorem test_assemble_refuses :
    assembleLine "SETVOL -3".toList = none ∧ assembleLine "SETATT_L 32768".toList = none ∧
    assembleLine "UNMUTE".toList = none ∧ assembleLine "SETZC 2".toList = none := by decide

/-! ### Numeric encoder, state byte, chip address (§2.1, §2.2, R21) -/

theorem test_encodeAttenuation :
    [0, -1, -100, -112, -223, -224, 1].map encodeAttenuation
      = [0x10#8, 0x11#8, 0x74#8, 0x80#8, 0xEF#8, 0xEF#8, 0x10#8] := by decide
theorem test_encodeGain :
    [-32768, -1, 0, 32, 63, 64].map encodeGain = [0x00#8, 0x00#8, 0x00#8, 0x20#8, 0x3F#8, 0x3F#8] := by decide
theorem test_encodeVolume :
    [0, -1, -2, -101, -223, -445, -446, -447].map encodeVolume
      = [(0x10#8, 0x00#8), (0x11#8, 0x40#8), (0x11#8, 0x00#8), (0x43#8, 0x40#8),
         (0x80#8, 0x40#8), (0xEF#8, 0x40#8), (0xEF#8, 0x00#8), (0xEF#8, 0x00#8)] := by decide
theorem test_packState_S13 :
    packState { CoreInst.constructed 0 with zc := false, gainLink := true, attLink := true } = 0xE0#8 ∧
    packState (CoreInst.constructed 0) = 0x00#8 := by decide
theorem test_chipAddr_S14 : chipAddrOf 10 = 2#3 ∧ chipAddrOf (-1) = 7#3 := by decide

/-! ### One accepted command each (§2.3, §2.4): the word is presented and the frames it queues are read off -/

/-- A ready core with this chip address and these control bits. -/
def readyCore (chip : ChipAddr) (zc attLink gainLink : Bool) : CoreInst :=
  { CoreInst.constructed 0 with chipAddr := chip, zc := zc, attLink := attLink, gainLink := gainLink }

/-- A system of the one core `c`. -/
def oneCore (c : CoreInst) : State := { State.reset with insts := [c] }

/-- What one step does to the core when the word `w` is presented: its frames as (data, address), and its
booleans zc, attLink, gainLink. -/
def accepts (c : CoreInst) (w : Nat) : Option (List (Byte × Byte) × Bool × Bool × Bool) :=
  match step ((oneCore c).withFetchWord 40 w) with
  | .next t =>
    match t.insts with
    | [d] => some (d.pending.map fun f => (f.data, f.addr), d.zc, d.attLink, d.gainLink)
    | _ => none
  | .fault _ => none
  | .refused _ => none

/-- V-DISP-1 -/
theorem test_setVol_1 :
    accepts (readyCore 0 true false false) 0x1000000000 = some ([(0x10,0x00),(0x00,0x10),(0x10,0x20),(0x00,0x30)], true, false, false) := by decide
/-- V-DISP-2 -/
theorem test_setVol_2 :
    accepts (readyCore 0 true true false) 0x10FFFFFFFE = some ([(0x11,0x00),(0x40,0x10),(0x00,0x30)], true, true, false) := by decide
/-- V-DISP-7 -/
theorem test_setVolL_7 :
    accepts (readyCore 1 true false false) 0x11FFFF0000 = some ([(0x11,0x01),(0x40,0x11)], true, false, false) := by decide
/-- V-DISP-8 -/
theorem test_setVolL_8 :
    accepts (readyCore 0 true true true) 0x11FFFC0000 = some ([(0x12,0x00),(0x00,0x10)], true, true, true) := by decide
/-- V-DISP-10 -/
theorem test_setVolR_10 :
    accepts (readyCore 0 true true false) 0x12FE420000 = some ([(0x00,0x30)], true, true, false) := by decide
/-- V-DISP-11 -/
theorem test_setVolR_11 :
    accepts (readyCore 0 true true true) 0x12FFFD0000 = some ([], true, true, true) := by decide
/-- V-DISP-12 -/
theorem test_setAtt_12 :
    accepts (readyCore 2 true true false) 0x20FFECFFE2 = some ([(0x24,0x02)], true, true, false) := by decide
/-- V-DISP-13 -/
theorem test_setAtt_13 :
    accepts (readyCore 0 true false false) 0x200005FED4 = some ([(0x10,0x00),(0xEF,0x20)], true, false, false) := by decide
/-- V-DISP-14 -/
theorem test_setAttL_14 :
    accepts (readyCore 0 true false false) 0x21FF200000 = some ([(0xEF,0x00)], true, false, false) := by decide
/-- V-DISP-15 -/
theorem test_setAttR_15 :
    accepts (readyCore 2 true false false) 0x22FFF60000 = some ([(0x1A,0x22)], true, false, false) := by decide
/-- V-DISP-16 -/
theorem test_setAttR_16 :
    accepts (readyCore 2 true true false) 0x22FFF60000 = some ([], true, true, false) := by decide
/-- V-DISP-17 -/
theorem test_setGain_17 :
    accepts (readyCore 5 true false true) 0x300046FFFB = some ([(0x3F,0x15)], true, false, true) := by decide
/-- V-DISP-18 -/
theorem test_setGain_18 :
    accepts (readyCore 7 true false false) 0x30000A0014 = some ([(0x0A,0x17),(0x14,0x37)], true, false, false) := by decide
/-- V-DISP-20 -/
theorem test_setGainL_20 :
    accepts (readyCore 0 true false false) 0x31FFFF0000 = some ([(0x00,0x10)], true, false, false) := by decide
/-- V-DISP-21 -/
theorem test_setGainR_21 :
    accepts (readyCore 0 true false false) 0x3200400000 = some ([(0x3F,0x30)], true, false, false) := by decide
/-- V-DISP-22 -/
theorem test_setGainR_22 :
    accepts (readyCore 0 true false true) 0x3200400000 = some ([], true, false, true) := by decide
/-- V-DISP-23 -/
theorem test_mute_23 :
    accepts (readyCore 5 true false false) 0x4000010001 = some ([(0x00,0x05),(0x00,0x25)], true, false, false) := by decide
/-- V-DISP-25 -/
theorem test_mute_25 :
    accepts (readyCore 0 true true false) 0x4000000001 = some ([], true, true, false) := by decide
/-- §2.3 -/
theorem test_setZc_off :
    accepts (readyCore 0 true false false) 0x5000000000 = some ([(0x20,0x40)], false, false, false) := by decide
/-- §2.3 -/
theorem test_setZc_unchanged :
    accepts (readyCore 7 true false false) 0x5000010000 = some ([(0x00,0x47)], true, false, false) := by decide
/-- §2.3 -/
theorem test_setAttLink_on :
    accepts (readyCore 2 true false false) 0x5100010000 = some ([(0x80,0x42)], true, true, false) := by decide
/-- §2.3 -/
theorem test_setAttLink_off :
    accepts (readyCore 5 false false true) 0x5100000000 = some ([(0x60,0x45)], false, false, true) := by decide
/-- §2.3, S13 -/
theorem test_setGainLink_on :
    accepts (readyCore 0 false true false) 0x5200010000 = some ([(0xE0,0x40)], false, true, true) := by decide

/-! ### Refusals, holding, and the framer's steps (R98, R99, R109, R25, §2.6) -/

theorem test_before_reset_refused :
    step ((State.powerOn 1).withFetchWord 40 0x1000000000) = .refused .notConstructed := by rfl
theorem test_reserved_before_reset_refused :
    step ((State.powerOn 1).withFetchWord 40 0) = .refused .notConstructed := by rfl
theorem test_reserved_refused : step (State.reset.withFetchWord 40 0x5080010000) = .refused .reservedEncoding := by rfl
theorem test_reset_waits_for_the_host : step State.reset = .next State.reset := by rfl

/-- §2.6: core 0 of a one-core system at chip address 5, sending the frame of `SETATT_L -2`, in phase `p`. -/
def sending (p : Phase) : State :=
  { State.reset with
    insts := [{ readyCore 5#3 true false false with
                pending := [{ data := 0x12#8, addr := 0x05#8 }], phase := p, csN := !p.selecting }]
    owner := if p = .idle then none else some 0
    trace := (wire 0 { data := 0x12#8, addr := 0x05#8 }).take p.progress }

/-- `sending p` with the schedule `as`. -/
def sendingWith (p : Phase) (as : List Agent) : State := { sending p with turns := as }

theorem test_step1_acquire : step (sendingWith .idle [.framer 0]) = .next (sending .acquired) := by rfl
theorem test_step2_csLow : step (sendingWith .acquired [.framer 0]) = .next (sending .selected) := by rfl
theorem test_step3_data : step (sendingWith .selected [.transport 0]) = .next (sending .sentData) := by rfl
theorem test_step4_addr : step (sendingWith .sentData [.transport 0]) = .next (sending .sentAddr) := by rfl
theorem test_step5_csHigh : step (sendingWith .sentAddr [.framer 0]) = .next (sending .deselected) := by rfl
theorem test_step6_release :
    step (sendingWith .deselected [.framer 0]) =
      .next { sending .idle with
        insts := [readyCore 5#3 true false false]
        trace := [.acquire 0 Config.bus, .csLow 0, .byte 0 0x12#8, .byte 0 0x05#8, .csHigh 0, .release 0] } := by rfl
theorem test_stuck : step (sending .selected) = .fault .stuckOnTransport := by rfl
theorem test_framer_waits_for_transport : step (sendingWith .selected [.framer 0]) = .next (sending .selected) := by rfl
theorem test_busy_core_holds :
    step { sendingWith .selected [.host] with host := [{ target := 0, request := .command 0x1000000000#40 }] }
      = .next { sending .selected with host := [{ target := 0, request := .command 0x1000000000#40 }] } := by rfl
theorem test_reset_while_busy :
    step { sendingWith .selected [.host] with host := [{ target := 0, request := .reset 3 }] }
      = .refused .resetWhileBusy := by rfl
theorem test_reset_masks_S14 :
    step { State.powerOn 1 with turns := [.host], host := [{ target := 0, request := .reset 10 }] }
      = .next (oneCore { CoreInst.constructed 0 with chipAddr := 2#3 }) := by rfl

/-- R91: while one core owns the bus another with a frame waits. -/
theorem test_other_core_waits :
    step { sendingWith .selected [.framer 1] with
        insts := (sending .selected).insts ++ (sending .idle).insts }
      = .next { sending .selected with insts := (sending .selected).insts ++ (sending .idle).insts } := by rfl

/-- R36, R95: a released frame is read off the trace and has written its location. -/
theorem test_space_after_frame :
    Memory.read (Memory.afterFrames [] (framesOn (wire 0 { data := 0x12#8, addr := 0x05#8 }))) 5 = some 0x12#8 ∧
    Memory.write (Memory.write [] 5 1#8) 2 3#8 = [(2, 3#8), (5, 1#8)] := by decide

/-! ### Witnesses for the hypotheses of the statements -/

/-- A ready core: VolumeCommandsEmitTheirFrames, AttenuationCommandsEmitTheirFrames, GainCommandsEmitTheirFrames,
MuteSendsTheMuteCode, StateSettersWriteThenPack, FramesPerCommandTable, CommandsWriteOnlyTheirRegisters,
FramesAscendBySelectCode, PseudoInstructionsExpand. -/
theorem witness_ready (chip : ChipAddr) (zc att gain : Bool) :
    (oneCore (readyCore chip zc att gain)).Ready (readyCore chip zc att gain) :=
  { atPort := rfl, live := rfl, idle := rfl, empty := rfl }

/-- The words of the forms, on both sides of each must-be-zero check: the command statements. -/
theorem witness_form_words :
    (opField 0x10FFFDFFF9#40 = 0x10#8) ∧
    (opField 0x11FFFF0000#40 = 0x11#8 ∧ bField 0x11FFFF0000#40 = 0#16) ∧
    (opField 0x11FFFF0001#40 = 0x11#8 ∧ bField 0x11FFFF0001#40 ≠ 0#16) ∧
    (opField 0x4000010001#40 = 0x40#8 ∧ (aField 0x4000010001#40).toNat < 2 ∧ (bField 0x4000010001#40).toNat < 2) ∧
    (opField 0x4000000003#40 = 0x40#8 ∧ 2 ≤ (bField 0x4000000003#40).toNat) ∧
    (opField 0x5000010000#40 = 0x50#8 ∧ bField 0x5000010000#40 = 0#16 ∧ (aField 0x5000010000#40).toNat < 2) ∧
    (opField 0x5080010000#40 = 0x50#8 ∧ 2 ≤ (aField 0x5080010000#40).toNat) := by decide

/-- LinkSuppressionIsPerRegister: a linked core, an unlinked one, and a channel command. -/
theorem witness_link :
    ¬ IsSetter (.setVol 0 0) ∧
    (oneCore (readyCore 2#3 true true true)).Ready (readyCore 2#3 true true true) ∧
    (oneCore (readyCore 2#3 false false false)).Ready (readyCore 2#3 false false false) ∧
    (readyCore 2#3 false false false).chipAddr = (readyCore 2#3 true true true).chipAddr ∧
    (readyCore 2#3 false false false).attLink = false ∧ (readyCore 2#3 false false false).gainLink = false :=
  ⟨id, witness_ready .., witness_ready .., rfl, rfl, rfl⟩

/-- EffectDependsOnlyOnControlFields: two different systems that agree on the control fields. -/
theorem witness_control :
    (oneCore (readyCore 2#3 true true false)).Ready (readyCore 2#3 true true false) ∧
    ({ oneCore (readyCore 2#3 true true false) with pc := 7 } : State).Ready (readyCore 2#3 true true false) ∧
    (readyCore 2#3 true true false).control = (readyCore 2#3 true true false).control :=
  ⟨witness_ready .., { atPort := rfl, live := rfl, idle := rfl, empty := rfl }, rfl⟩

/-- CommandsLeaveTheRestUnchanged. -/
theorem witness_exec_next :
    exec (.setZc false) State.reset = .next (State.reset.accepted
      { readyCore 0#3 false false false with pending := [{ data := 0x20#8, addr := 0x40#8 }] }) := by rfl

/-- DecodeOfEncode, EncodeOfDecode, DecodeFollowsTheOpcodeTable, AssembledLinesAreCommands. -/
theorem witness_words :
    (Instr.setGain 70 (-5)).WellFormed ∧ decodeTableWord 40 0x300046FFFB = some (.setGain 70 (-5)) ∧
    opcodeRows[6]? = some (0x3000000000#40, 0xFF00000000#40) ∧
    rowMatches 0x300046FFFB#40 (0x3000000000#40, 0xFF00000000#40) = true ∧
    assembleLine "SETGAIN 70, -5".toList = some (some (.command 0x300046FFFB#40)) := by decide

/-- AssembledLinesAreCommands: R45's first example with a comment, and the operand range's two ends. -/
theorem witness_line :
    Piece "SETVOL".toList ∧ "SETVOL" ≠ ".reset" ∧ (∀ x ∈ ["-3".toList, "-7".toList], Piece x) ∧
    Comment "; both".toList ∧ "SETVOL -3, -7".toList = lineOf "SETVOL" ["-3".toList, "-7".toList] ∧
    (-32768 : Int) ≤ -32768 ∧ (-32768 : Int) ≤ 32767 ∧ (-32768 : Int) ≤ 32767 ∧ (32767 : Int) ≤ 32767 := by
  exact ⟨by simp [Piece], by decide, by simp [Piece], .inr ⟨" both".toList, by decide⟩, by decide, by decide⟩

/-- Lines at and past the ends of the operand range, and with a wrong number of operands (R45). -/
theorem test_assemble_range :
    assembleLine "SETATT_R -32768".toList = some (some (.command 0x2280000000#40)) ∧
    assembleLine "SETATT_R 0xFFFF".toList = some (some (.command 0x22FFFF0000#40)) ∧
    assembleLine "SETATT_R 32768".toList = none ∧ assembleLine "SETATT_R -32769".toList = none ∧
    assembleLine "SETATT_R 0x10000".toList = none ∧ assembleLine "SETATT_R 1, 2".toList = none ∧
    assembleLine "MUTE 1".toList = none ∧ assembleLine "MUTE 1, 2".toList = none := by decide

/-- ResetLinesAndSpacing. -/
theorem witness_reset_line :
    (∀ x ∈ ["-1".toList], Piece x) ∧ Comment [] ∧ (∀ c ∈ "NOP".toList, c ≠ ';') ∧
    assembleLine (lineOf ".reset" ["-1".toList]) = some (some (.reset (-1))) ∧
    assembleProgram [".reset 2".toList, "; first".toList, "  NOP ; last".toList]
      = some [.reset 2, .command 0x4000000000#40] := by
  exact ⟨by simp [Piece], .inl rfl, by simp, rfl, rfl⟩

/-- The two rows at the table's ends each match a word: DecodeFollowsTheOpcodeTable. -/
theorem witness_rows_ends :
    opcodeRows[0]? = some (0x1000000000#40, 0xFF00000000#40) ∧ rowMatches 0x1000000000#40 (0x1000000000#40, 0xFF00000000#40) = true ∧
    opcodeRows[12]? = some (0x5200000000#40, 0xFFFFFEFFFF#40) ∧ rowMatches 0x5200010000#40 (0x5200000000#40, 0xFFFFFEFFFF#40) = true := by
  decide

/-- AttenuationEncoderLaws, GainEncoderLaws, VolumeEncoderClosedForm, VolumeLevelIsExact: integers in and on both
sides of each range, at its ends. -/
theorem witness_ranges :
    ((-223 : Int) ≤ -223 ∧ (-223 : Int) ≤ 0) ∧ (-224 : Int) < -223 ∧ (0 : Int) < 1 ∧
    ((0 : Int) ≤ 63 ∧ (63 : Int) ≤ 63) ∧ (63 : Int) < 64 ∧ (-1 : Int) < 0 ∧
    ((223 : Nat) ≤ 223 ∧ (222 : Nat) ≤ 222) ∧ (-447 : Int) < -446 ∧
    ((-446 : Int) ≤ -446 ∧ (-446 : Int) ≤ 0 ∧ encodeVolume (-446) = encodeVolume (-446)) := by decide

/-- StepRunsTheDecodedCommand, and the ready clause of CommandIndexCountsAcceptances. -/
theorem witness_presents :
    ((State.reset.withFetchWord 40 0x4000010001).HostPresents 0 (.command 0x4000010001#40)) ∧
    decode 0x4000010001#40 = .ok (.mute true true) ∧ (CoreInst.constructed 0).cmdReady = true :=
  ⟨⟨[], [], rfl, rfl⟩, rfl, rfl⟩

/-- WordsAreCheckedInOrder, its clause for a core that is not live. -/
theorem witness_not_live :
    ((State.powerOn 1).withFetchWord 40 0).HostPresents 0 (.command 0#40) ∧
    ((State.powerOn 1).withFetchWord 40 0).insts[0]? = some CoreInst.unbuilt ∧ CoreInst.unbuilt.live = false :=
  ⟨⟨[], [], rfl, rfl⟩, rfl, rfl⟩

/-- WordsAreCheckedInOrder, its clause for a reserved word at a ready core. -/
theorem witness_reserved :
    (State.reset.withFetchWord 40 0).HostPresents 0 (.command 0#40) ∧
    (State.reset.withFetchWord 40 0).insts[0]? = some (CoreInst.constructed 0) ∧
    decode 0#40 = .error .unassignedOpcode :=
  ⟨⟨[], [], rfl, rfl⟩, rfl, rfl⟩

/-- CommandsNeverFault: a command that is refused for each reason. -/
theorem witness_refused :
    exec (.mute true true) (State.powerOn 1) = .refused .notConstructed ∧
    exec (.mute true true) (State.powerOn 0) = .refused .noSuchCore := ⟨rfl, rfl⟩

/-- ResetConstructsTheCore: its admitted clause, on a core not live and on a ready one, and its refused clause. -/
theorem witness_reset :
    ({ State.powerOn 1 with turns := [.host], host := [⟨0, .reset 3⟩] } : State).HostPresents 0 (.reset 3) ∧
    (State.powerOn 1).insts[0]? = some CoreInst.unbuilt ∧ CoreInst.unbuilt.live = false ∧
    ({ State.reset with turns := [.host], host := [⟨0, .reset 3⟩] } : State).HostPresents 0 (.reset 3) ∧
    State.reset.insts[0]? = some (CoreInst.constructed 0) ∧
    ({ sending .selected with turns := [.host], host := [⟨0, .reset 3⟩] } : State).HostPresents 0 (.reset 3) :=
  ⟨⟨[], [], rfl, rfl⟩, rfl, rfl, ⟨[], [], rfl, rfl⟩, rfl, ⟨[], [], rfl, rfl⟩⟩

/-- The core of `sending p`. -/
def sender (p : Phase) : CoreInst :=
  { readyCore 5#3 true false false with
    pending := [{ data := 0x12#8, addr := 0x05#8 }], phase := p, csN := !p.selecting }

/-- BusyCoreLeavesTheWordWithTheHost. -/
theorem witness_busy :
    ({ sending .selected with turns := [.host], host := [⟨0, .command 0#40⟩] } : State).HostPresents 0 (.command 0#40) ∧
    (sending .selected).insts[0]? = some (sender .selected) ∧ (sender .selected).live = true ∧
    (sender .selected).phase ≠ .idle := by
  exact ⟨⟨[], [], rfl, rfl⟩, rfl, rfl, by decide⟩

/-- BusyCoreLeavesTheWordWithTheHost, a core that is idle between two frames: frames pending, and a command. -/
theorem witness_busy_idle :
    ({ sending .idle with turns := [.host], host := [⟨0, .command 0x4000000000#40⟩] } : State).HostPresents 0
      (.command 0x4000000000#40) ∧
    (sending .idle).insts[0]? = some (sender .idle) ∧ (sender .idle).live = true ∧ (sender .idle).phase = .idle ∧
    (sender .idle).pending ≠ [] := by
  exact ⟨⟨[], [], rfl, rfl⟩, rfl, rfl, rfl, by decide⟩

/-- FramerTransitions, TransportTakesBothBytes and DisabledTurnsWait: every phase, with the bus free in `idle`. -/
theorem witness_phases (p : Phase) :
    (sendingWith p [.framer 0]).turns = .framer 0 :: [] ∧ (sendingWith p [.transport 0]).turns = .transport 0 :: [] ∧
    (sending p).insts[0]? = some (sender p) ∧ (sender p).phase = p ∧
    (sender p).pending = { data := 0x12#8, addr := 0x05#8 } :: [] ∧ (sending .idle).owner = none :=
  ⟨rfl, rfl, rfl, rfl, rfl, rfl⟩

/-- DisabledTurnsWait: an idle framer with nothing to send, and one whose bus another core owns. -/
theorem witness_disabled :
    ({ State.reset with turns := [.framer 0] } : State).insts[0]? = some (CoreInst.constructed 0) ∧
    (CoreInst.constructed 0).phase = .idle ∧ (CoreInst.constructed 0).pending = [] ∧
    ({ sendingWith .idle [.framer 0] with owner := some 1 } : State).owner ≠ none :=
  ⟨rfl, rfl, rfl, by decide⟩

/-- SixTurnsSendOneFrame. -/
theorem witness_six_turns :
    (sendingWith .idle (frameTurns 0)).turns = frameTurns 0 ++ [] ∧
    (sending .idle).insts[0]? = some (sender .idle) ∧ (sender .idle).phase = .idle ∧ (sending .idle).owner = none :=
  ⟨by rw [List.append_nil]; rfl, rfl, rfl, rfl⟩

/-- NoTurnIsStuckOrWaiting, both clauses. -/
theorem witness_no_turn :
    (sending .sentData).turns = [] ∧ (sender .sentData ∈ (sending .sentData).insts ∧ (sender .sentData).phase = .sentData) ∧
    State.reset.turns = [] ∧ (∀ c ∈ State.reset.insts, c.phase ≠ .selected ∧ c.phase ≠ .sentData) := by
  refine ⟨rfl, ⟨List.mem_singleton.mpr rfl, rfl⟩, rfl, by decide⟩

/-- A core in mid-frame meets its invariant in every phase. -/
theorem sender_inv (p : Phase) : (sender p).Inv where
  csLevel := rfl
  inFlight := fun _ => by simp [sender]
  notLive := fun h => by simp [sender, readyCore, CoreInst.constructed] at h
  atMostFour := by simp [sender]
  legal := by
    intro f hf
    simp only [sender, List.mem_singleton] at hf
    subst hf
    exact ⟨.attL, (by decide : (0x05#8 : Byte) = addressByte .attL 5#3), .inr (by decide)⟩

/-- A state in mid-frame that meets the invariant, in every phase: EveryStepKeepsTheInvariant,
OneCoreDrivesTheBus, FramesAreNeverLostOrReordered, FramerRefinesTheAtomicView, LocationsChangeOnlyAtRelease. -/
theorem witness_inv (p : Phase) (as : List Agent) : (sendingWith p as).Inv where
  cores := by
    intro c hc
    have h : c = sender p := List.mem_singleton.mp hc
    rw [h]
    exact sender_inv p
  ownership := by
    intro i c hc
    cases i with
    | zero =>
      cases hc
      cases p <;> simp [sendingWith, sending]
    | succ i => simp [sendingWith, sending] at hc
  ownerExists := by
    intro i hi
    cases p <;> simp_all [sendingWith, sending]
  wholeFrames := by cases p <;> rfl
  sentLegal := by
    intro q hq
    have h : framesOn (sendingWith p as).trace = [] := by cases p <;> rfl
    rw [h] at hq
    cases hq

/-- A step from such a state answers next: the statements above, and StepsTouchOneCore,
CommandIndexCountsAcceptances, OnlySettersAndResetWriteControl. -/
theorem witness_step : step (sendingWith .deselected [.framer 0]) =
    .next { sending .idle with
      insts := [readyCore 5#3 true false false]
      trace := wire 0 { data := 0x12#8, addr := 0x05#8 } } := rfl

/-- StuckWithoutTheTransport: one framer's turn, in each of the two phases. -/
theorem witness_stuck :
    (sendingWith .selected [.framer 0]).Inv ∧ (sendingWith .sentData [.framer 0]).Inv ∧
    (∀ a ∈ (sendingWith .selected [.framer 0]).turns, a ≠ .transport 0) ∧
    (sendingWith .selected [.framer 0]).run 1 = .next (sending .selected) ∧
    (sendingWith .sentData [.framer 0]).run 1 = .next (sending .sentData) :=
  ⟨witness_inv .., witness_inv .., by decide, rfl, rfl⟩

/-- CommandRunsToCompletion. -/
theorem witness_command_run :
    (Instr.setAttL (-2)).WellFormed ∧
    ∃ s : State, s.insts[0]? = some (CoreInst.constructed 5) ∧ (CoreInst.constructed 5).csN = true ∧
      s.owner = none ∧ s.host = { target := 0, request := .command (encode (.setAttL (-2))) } :: [] ∧
      s.turns = commandTurns 0 ++ [] :=
  ⟨by decide, { oneCore (CoreInst.constructed 5) with
    host := [{ target := 0, request := .command (encode (.setAttL (-2))) }], turns := commandTurns 0 ++ [] },
    rfl, rfl, rfl, rfl, rfl⟩

/-- CompletedCommandWritesItsLocations: the same with the invariant, and a setter. -/
theorem witness_completed :
    ∃ s : State, s.Inv ∧ (Instr.setZc false).WellFormed ∧ IsSetter (.setZc false) ∧
      s.insts[0]? = some (readyCore 5#3 true false false) ∧
      s.owner = none ∧ s.host = { target := 0, request := .command (encode (.setZc false)) } :: [] ∧
      s.turns = commandTurns 0 ++ [] := by
  refine ⟨{ oneCore (readyCore 5#3 true false false) with
    host := [{ target := 0, request := .command (encode (.setZc false)) }], turns := commandTurns 0 ++ [] },
    ⟨?_, ?_, ?_, rfl, ?_⟩, by decide, trivial, rfl, rfl, rfl, rfl⟩
  · intro c hc
    have h : c = readyCore 5#3 true false false := List.mem_singleton.mp hc
    rw [h]
    constructor <;> simp [readyCore, CoreInst.constructed, Phase.selecting]
  · intro i c hc
    cases i with
    | zero => cases hc; simp [oneCore, State.reset, readyCore, CoreInst.constructed]
    | succ i => simp [oneCore] at hc
  · intro i hi
    cases hi
  · intro q hq
    cases hq

end Sys2Proof.Machine.Tests
end

section
/-! PROOFS. What a command does to its core, split once into the field it writes and the frames it emits
(spec R24, R26, R47 to R50, R66, R80). -/

namespace Sys2Proof.Machine

/-- R66: the core with the field of a state setter written; any other command writes no field. -/
def writeField : Instr → CoreInst → CoreInst
  | .setZc e, c => { c with zc := e }
  | .setAttLink e, c => { c with attLink := e }
  | .setGainLink e, c => { c with gainLink := e }
  | _, c => c

/-- The frames a command emits on the core `c`, in order (R61, R68, R70 to R79). -/
def emits : Instr → CoreInst → List Frame
  | .setVol l r, c =>
    [mkFrame .attL (encodeVolume l).1 c.chipAddr, mkFrame .gainL (encodeVolume l).2 c.chipAddr]
      ++ unlessLinked c.attLink (mkFrame .attR (encodeVolume r).1 c.chipAddr)
      ++ unlessLinked c.gainLink (mkFrame .gainR (encodeVolume r).2 c.chipAddr)
  | .setVolL v, c =>
    [mkFrame .attL (encodeVolume v).1 c.chipAddr, mkFrame .gainL (encodeVolume v).2 c.chipAddr]
  | .setVolR v, c =>
    unlessLinked c.attLink (mkFrame .attR (encodeVolume v).1 c.chipAddr)
      ++ unlessLinked c.gainLink (mkFrame .gainR (encodeVolume v).2 c.chipAddr)
  | .setAtt l r, c =>
    mkFrame .attL (encodeAttenuation l) c.chipAddr
      :: unlessLinked c.attLink (mkFrame .attR (encodeAttenuation r) c.chipAddr)
  | .setAttL v, c => [mkFrame .attL (encodeAttenuation v) c.chipAddr]
  | .setAttR v, c => unlessLinked c.attLink (mkFrame .attR (encodeAttenuation v) c.chipAddr)
  | .setGain l r, c =>
    mkFrame .gainL (encodeGain l) c.chipAddr
      :: unlessLinked c.gainLink (mkFrame .gainR (encodeGain r) c.chipAddr)
  | .setGainL g, c => [mkFrame .gainL (encodeGain g) c.chipAddr]
  | .setGainR g, c => unlessLinked c.gainLink (mkFrame .gainR (encodeGain g) c.chipAddr)
  | .mute ml mr, c =>
    (if ml then [mkFrame .attL muteCode c.chipAddr] else [])
      ++ if mr then unlessLinked c.attLink (mkFrame .attR muteCode c.chipAddr) else []
  | .setZc e, c => [mkFrame .state (packState { c with zc := e }) c.chipAddr]
  | .setAttLink e, c => [mkFrame .state (packState { c with attLink := e }) c.chipAddr]
  | .setGainLink e, c => [mkFrame .state (packState { c with gainLink := e }) c.chipAddr]

/-- The rule of a command: its field is written and its frames are appended. -/
theorem ruleOf_eq (i : Instr) (c : CoreInst) :
    ruleOf i c = { writeField i c with pending := c.pending ++ emits i c } := by
  cases i with
  | mute ml mr =>
    cases ml <;> cases mr <;>
      simp [ruleOf, writeField, emits, unlessLinked, CoreInst.writeAttL_eq, CoreInst.writeAttR_eq]
  | _ =>
    simp [ruleOf, writeField, emits, unlessLinked, CoreInst.writeAttL_eq, CoreInst.writeAttR_eq,
      CoreInst.writeGainL_eq, CoreInst.writeGainR_eq, CoreInst.writeState_eq]

section WriteField
variable (i : Instr) (c : CoreInst)

@[simp] theorem writeField_chipAddr : (writeField i c).chipAddr = c.chipAddr := by cases i <;> rfl
@[simp] theorem writeField_phase : (writeField i c).phase = c.phase := by cases i <;> rfl
@[simp] theorem writeField_csN : (writeField i c).csN = c.csN := by cases i <;> rfl
@[simp] theorem writeField_live : (writeField i c).live = c.live := by cases i <;> rfl

variable {i}

theorem writeField_zc (h : ∀ e, i ≠ .setZc e) : (writeField i c).zc = c.zc := by
  cases i with
  | setZc e => exact absurd rfl (h e)
  | _ => rfl

theorem writeField_attLink (h : ∀ e, i ≠ .setAttLink e) : (writeField i c).attLink = c.attLink := by
  cases i with
  | setAttLink e => exact absurd rfl (h e)
  | _ => rfl

theorem writeField_gainLink (h : ∀ e, i ≠ .setGainLink e) : (writeField i c).gainLink = c.gainLink := by
  cases i with
  | setGainLink e => exact absurd rfl (h e)
  | _ => rfl

end WriteField

section Control
variable {c d : CoreInst}

theorem CoreInst.control_eq_iff :
    c.control = d.control ↔
      c.chipAddr = d.chipAddr ∧ c.zc = d.zc ∧ c.attLink = d.attLink ∧ c.gainLink = d.gainLink := by
  simp [CoreInst.control]

/-- R24: the field a setter writes leaves two cores agreeing on the control fields if they agreed before. -/
theorem writeField_control_congr (i : Instr) (h : c.control = d.control) :
    (writeField i c).control = (writeField i d).control := by
  rw [CoreInst.control_eq_iff] at h ⊢
  obtain ⟨hchip, hzc, hatt, hgain⟩ := h
  cases i <;> simp [writeField, hchip, hzc, hatt, hgain]

/-- R24: the frames of a command depend on the four control fields only. -/
theorem emits_congr (i : Instr) (h : c.control = d.control) : emits i c = emits i d := by
  obtain ⟨hchip, hzc, hatt, hgain⟩ := CoreInst.control_eq_iff.mp h
  cases i <;> simp [emits, packState, hchip, hzc, hatt, hgain]

end Control

section Emits
variable {i : Instr} {c : CoreInst} {f : Frame}

theorem mem_unlessLinked {link : Bool} {g : Frame} : f ∈ unlessLinked link g ↔ link = false ∧ f = g := by
  cases link <;> simp [unlessLinked]

/-- R80: the number of frames a command emits, by the link bits it finds. -/
theorem length_emits (i : Instr) (c : CoreInst) : (emits i c).length = frameCount c.attLink c.gainLink i := by
  obtain ⟨chip, zc, att, gain, pending, phase, csN, live⟩ := c
  cases i with
  | mute ml mr => cases ml <;> cases mr <;> cases att <;> rfl
  | _ => cases att <;> cases gain <;> rfl

theorem frameCount_le (att gain : Bool) (i : Instr) : frameCount att gain i ≤ 4 := by
  cases i with
  | mute ml mr =>
    have hl := ml.toNat_le
    have hr := mr.toNat_le
    simp only [frameCount]
    split <;> omega
  | _ => simp only [frameCount]; omega

/-- R80: a command emits at most four frames. -/
theorem length_emits_le (i : Instr) (c : CoreInst) : (emits i c).length ≤ 4 :=
  (length_emits i c).trans_le (frameCount_le ..)

/-- R47, R53: an attenuation byte is never the mute code. -/
theorem encodeAttenuation_attCode (v : Int) : AttCode (encodeAttenuation v) := by
  have h : (clamp v (-223) 0).natAbs ≤ 223 := by unfold clamp; omega
  rw [AttCode, encodeAttenuation_toNat]
  omega

theorem encodeVolume_attCode (v : Int) : AttCode (encodeVolume v).1 := encodeAttenuation_attCode _

theorem encodeGain_le (v : Int) : (encodeGain v).toNat ≤ 0x3F := by
  rw [encodeGain_toNat]
  unfold clamp
  omega

/-- R29, R47 to R50: a command emits frames to its own registers only, with the bytes it may write there. -/
theorem sends_of_mem_emits (h : f ∈ emits i c) : ∃ sel d, f = mkFrame sel d c.chipAddr ∧ Sends i sel d := by
  cases i with
  | setVol l r =>
    simp only [emits, List.mem_append, List.mem_cons, List.not_mem_nil, or_false, mem_unlessLinked] at h
    obtain ((rfl | rfl) | ⟨-, rfl⟩) | ⟨-, rfl⟩ := h
    · exact ⟨.attL, _, rfl, encodeVolume_attCode l⟩
    · exact ⟨.gainL, _, rfl, encodeVolume_gain l⟩
    · exact ⟨.attR, _, rfl, encodeVolume_attCode r⟩
    · exact ⟨.gainR, _, rfl, encodeVolume_gain r⟩
  | setVolL v =>
    simp only [emits, List.mem_cons, List.not_mem_nil, or_false] at h
    obtain rfl | rfl := h
    · exact ⟨.attL, _, rfl, encodeVolume_attCode v⟩
    · exact ⟨.gainL, _, rfl, encodeVolume_gain v⟩
  | setVolR v =>
    simp only [emits, List.mem_append, mem_unlessLinked] at h
    obtain ⟨-, rfl⟩ | ⟨-, rfl⟩ := h
    · exact ⟨.attR, _, rfl, encodeVolume_attCode v⟩
    · exact ⟨.gainR, _, rfl, encodeVolume_gain v⟩
  | setAtt l r =>
    simp only [emits, List.mem_cons, mem_unlessLinked] at h
    obtain rfl | ⟨-, rfl⟩ := h
    · exact ⟨.attL, _, rfl, encodeAttenuation_attCode l⟩
    · exact ⟨.attR, _, rfl, encodeAttenuation_attCode r⟩
  | setAttL v => exact ⟨.attL, _, List.mem_singleton.mp h, encodeAttenuation_attCode v⟩
  | setAttR v => exact ⟨.attR, _, (mem_unlessLinked.mp h).2, encodeAttenuation_attCode v⟩
  | setGain l r =>
    simp only [emits, List.mem_cons, mem_unlessLinked] at h
    obtain rfl | ⟨-, rfl⟩ := h
    · exact ⟨.gainL, _, rfl, encodeGain_le l⟩
    · exact ⟨.gainR, _, rfl, encodeGain_le r⟩
  | setGainL g => exact ⟨.gainL, _, List.mem_singleton.mp h, encodeGain_le g⟩
  | setGainR g => exact ⟨.gainR, _, (mem_unlessLinked.mp h).2, encodeGain_le g⟩
  | mute ml mr =>
    simp only [emits, List.mem_append, List.mem_ite_nil_right, List.mem_singleton, mem_unlessLinked] at h
    obtain ⟨-, rfl⟩ | ⟨-, -, rfl⟩ := h
    · exact ⟨.attL, _, rfl, rfl⟩
    · exact ⟨.attR, _, rfl, rfl⟩
  | setZc e | setAttLink e | setGainLink e => exact ⟨.state, _, List.mem_singleton.mp h, packState_low _⟩

/-- What a command may write to a register is a byte of that register's range (R22, R47, R48). -/
theorem admits_of_sends {sel : RegSel} {d : Byte} (h : Sends i sel d) : sel.Admits d := by
  have gain_of_volume (h : d = 0x00#8 ∨ d = 0x40#8) : d.toNat ≤ 0x3F ∨ d = 0x40#8 :=
    h.imp_left fun hd => by simp [hd]
  cases sel with
  | attL =>
    cases i with
    | setVol | setVolL | setAtt | setAttL => exact .inr h
    | mute => exact .inl h
    | _ => exact h.elim
  | gainL =>
    cases i with
    | setVol | setVolL => exact gain_of_volume h
    | setGain | setGainL => exact .inl h
    | _ => exact h.elim
  | attR =>
    cases i with
    | setVol | setVolR | setAtt | setAttR => exact .inr h
    | mute => exact .inl h
    | _ => exact h.elim
  | gainR =>
    cases i with
    | setVol | setVolR => exact gain_of_volume h
    | setGain | setGainR => exact .inl h
    | _ => exact h.elim
  | state =>
    cases i with
    | setZc | setAttLink | setGainLink => exact h
    | _ => exact h.elim

/-- R49, R50: every frame a command emits is one its core may send. -/
theorem legal_of_mem_emits (h : f ∈ emits i c) : f.Legal c.chipAddr := by
  obtain ⟨sel, d, rfl, hsends⟩ := sends_of_mem_emits h
  exact ⟨sel, rfl, admits_of_sends hsends⟩

end Emits

section Ready
variable {s : State} {c : CoreInst}

theorem State.Ready.cmdReady (h : s.Ready c) : c.cmdReady = true :=
  c.cmdReady_iff.mpr ⟨h.live, h.idle, h.empty⟩

/-- After the acceptance the core at the port is the one the rule gave. -/
theorem State.accepted_getElem?_port (h : s.insts[s.port]? = some c) (d : CoreInst) :
    (s.accepted d).insts[s.port]? = some d := by
  obtain ⟨hk, -⟩ := List.getElem?_eq_some_iff.mp h
  simp [hk]

/-- R25: a ready core accepts every command; its frames are exactly those the command emits. -/
theorem exec_of_ready (i : Instr) (h : s.Ready c) :
    exec i s = .next (s.accepted { writeField i c with pending := emits i c }) := by
  rw [exec_eq_accept, State.accept_ready h.atPort h.cmdReady, ruleOf_eq, h.empty, List.nil_append]

end Ready

/-- If `exec` answers next, the core was busy and nothing changed, or the command was accepted. -/
theorem exec_next {i : Instr} {s t : State} (h : exec i s = .next t) :
    t = s ∨ ∃ c, s.insts[s.port]? = some c ∧ t = s.accepted (ruleOf i c) := by
  rw [exec_eq_accept] at h
  obtain ⟨rfl, -⟩ | ⟨c, hc, -, rfl⟩ := State.accept_next h
  · exact .inl rfl
  · exact .inr ⟨c, hc, rfl⟩

/-- Settles O10: `exec` changes nothing (the core is busy) or runs the command's rule, which `ruleOf_eq` splits. -/
theorem commandsLeaveTheRestUnchanged : Obligations.CommandsLeaveTheRestUnchanged := by
  intro i s t h
  obtain rfl | ⟨b, hb, rfl⟩ := exec_next h
  · refine ⟨rfl, rfl, rfl, rfl, rfl, fun _ => rfl, fun _ _ => rfl, fun c c' hc hc' => ?_⟩
    obtain rfl : c = c' := Option.some.inj (hc.symm.trans hc')
    exact ⟨rfl, rfl, rfl, rfl, fun _ => rfl, fun _ => rfl, fun _ => rfl⟩
  · refine ⟨rfl, rfl, rfl, rfl, by simp, fun _ => rfl, fun k hk => List.getElem?_set_ne hk.symm,
      fun c c' hc hc' => ?_⟩
    obtain rfl : b = c := Option.some.inj (hb.symm.trans hc)
    obtain rfl : ruleOf i b = c' := Option.some.inj ((State.accepted_getElem?_port hb _).symm.trans hc')
    rw [ruleOf_eq]
    exact ⟨writeField_chipAddr i b, writeField_phase i b, writeField_csN i b, writeField_live i b,
      writeField_zc b, writeField_attLink b, writeField_gainLink b⟩

/-- Settles O11: both cores are ready, and the field written and the frames emitted depend on the control fields. -/
theorem effectDependsOnlyOnControlFields : Obligations.EffectDependsOnlyOnControlFields := by
  intro i s u c d hs hu hcd
  exact ⟨_, _, _, _, exec_of_ready i hs, exec_of_ready i hu, State.accepted_getElem?_port hs.atPort _,
    State.accepted_getElem?_port hu.atPort _, emits_congr i hcd, writeField_control_congr i hcd⟩

end Sys2Proof.Machine
end

section
/-! PROOFS. One step, by the core it is about: a turn that is used up, a request of the host, or a move of a
framer or of the transport (spec R7, R25, R27, R66, R122). -/

namespace Sys2Proof.Machine

section HostPresents
variable {s : State} {k k' : Nat} {r r' : Request} {w : CmdWord} {i : Instr} {c : CoreInst}

theorem State.HostPresents.head (h : s.HostPresents k r) : s.turns.head? = some .host := by
  obtain ⟨turns, -, ht, -⟩ := h
  simp [ht]

/-- The host presents one request at a time. -/
theorem State.HostPresents.unique (h : s.HostPresents k r) (h' : s.HostPresents k' r') : k = k' ∧ r = r' := by
  obtain ⟨_, _, -, hh⟩ := h
  obtain ⟨_, _, -, hh'⟩ := h'
  exact HostItem.mk.inj (List.cons.inj (hh.symm.trans hh')).1

/-- R122: the step that presents a word is that word on the command port. -/
theorem State.HostPresents.step_command (h : s.HostPresents k (.command w)) :
    step s = State.command { s.turnUsed with port := k } w := by
  obtain ⟨turns, items, ht, hh⟩ := h
  simp [step, ht, State.fire, State.present, hh, State.turnUsed]

theorem State.command_ok (h : decode w = .ok i) : s.command w = exec i s := by
  simp [State.command, h]

/-- R25, R113: a live core that is not ready takes no word, a reserved one neither (log 10). -/
theorem State.command_busy (w : CmdWord) (h : s.insts[s.port]? = some c) (hl : c.live = true)
    (hr : c.cmdReady = false) : s.command w = .next s := by
  unfold State.command
  split
  · rw [exec_eq_accept]
    exact State.gate_busy h hl hr
  · exact State.gate_busy h hl hr

end HostPresents

/-- Settles O25: the step is the word on the command port, and that word's command. -/
theorem stepRunsTheDecodedCommand : Obligations.StepRunsTheDecodedCommand := by
  intro s k w i h hd
  rw [h.step_command, State.command_ok hd]

/-- Settles O27: a core that is mid-command is not ready, so the command port leaves the word. -/
theorem busyCoreLeavesTheWordWithTheHost : Obligations.BusyCoreLeavesTheWordWithTheHost := by
  intro s k w c h hc hl hbusy
  have hr : c.cmdReady = false := by
    rw [← Bool.not_eq_true, c.cmdReady_iff]
    rintro ⟨-, hidle, hempty⟩
    exact hbusy.elim (· hidle) (· hempty)
  rw [h.step_command]
  exact State.command_busy w hc hl hr

/-- A move of core `k`'s framer or of the transport at core `k` takes `s` to `t`. -/
def State.Moves (s : State) (k : Nat) (c : CoreInst) (t : State) : Prop :=
  s.framerStep k c = some t ∨ s.transportStep k c = some t

/-- A move touches its own core, whose control fields stand, and the bus. -/
theorem State.Moves.frame {s t : State} {k : Nat} {c : CoreInst} (h : s.Moves k c t) :
    ∃ d o e, t = { s with insts := s.insts.set k d, owner := o, trace := s.trace ++ [e] } ∧
      d.control = c.control := by
  rcases h with h | h
  · obtain ⟨-, -, -, rfl⟩ | ⟨-, rfl⟩ | ⟨-, rfl⟩ | ⟨-, rfl⟩ := State.framerStep_some h <;>
      exact ⟨_, _, _, rfl, rfl⟩
  · obtain ⟨f, fs, -, ⟨-, rfl⟩ | ⟨-, rfl⟩⟩ := State.transportStep_some h <;>
      exact ⟨_, _, _, rfl, rfl⟩

theorem State.turnUsed_of_nil {s : State} (h : s.turns = []) : s.turnUsed = s := by
  cases s
  simp_all [State.turnUsed]

theorem State.turnUsed_of_cons {s : State} {a : Agent} {rest : List Agent} (h : s.turns = a :: rest) :
    { s with turns := rest } = s.turnUsed := by
  simp [State.turnUsed, h]

/-- What a step can do, as a relation between the state before and the state after. -/
inductive State.Effect (s : State) : State → Prop where
  /-- Log 2: there is no turn, or the agent whose turn it is has nothing to do. -/
  | waits : (∀ k r, ¬ s.HostPresents k r) → s.Effect s.turnUsed
  /-- R25, R113: the host presents a word to a core that is busy. -/
  | holds {k w c} : s.HostPresents k (.command w) → s.insts[k]? = some c → c.cmdReady = false →
      s.Effect { s.turnUsed with port := k }
  /-- R25: the host presents a command to a ready core. -/
  | accepts {k w i c} : s.HostPresents k (.command w) → decode w = .ok i → s.insts[k]? = some c →
      c.cmdReady = true → s.Effect (State.accepted { s.turnUsed with port := k } (ruleOf i c))
  /-- R107: the host presents a reset to a core that is not mid-command. -/
  | resets {k cfg c} : s.HostPresents k (.reset cfg) → s.insts[k]? = some c → c.resetAdmitted = true →
      s.Effect { s.turnUsed with
        port := k, insts := s.insts.set k (CoreInst.constructed cfg), host := s.host.tail }
  /-- R83 to R88: a framer or the transport moves. -/
  | moves {k c t} : s.turns.head? = some (.framer k) ∨ s.turns.head? = some (.transport k) →
      s.insts[k]? = some c → s.turnUsed.Moves k c t → s.Effect t

/-- A turn of a framer or the transport is used up or is a move. -/
theorem State.effect_turnOf {s : State} {k : Nat} {a : Agent} {rest : List Agent}
    {move : State → Nat → CoreInst → Option State} (ht : s.turns = a :: rest)
    (ha : a = .framer k ∨ a = .transport k)
    (hm : ∀ {c t}, move s.turnUsed k c = some t → s.turnUsed.Moves k c t) :
    s.Effect (s.turnUsed.turnOf k move) := by
  have hhead : s.turns.head? = some (.framer k) ∨ s.turns.head? = some (.transport k) := by
    simpa [ht] using ha
  obtain hw | ⟨c, t, hc, hmove, htt⟩ := s.turnUsed.turnOf_cases k move
  · rw [hw]
    refine .waits fun j r hp => ?_
    rw [hp.head] at hhead
    simp at hhead
  · rw [htt]
    exact .moves hhead hc (hm hmove)

/-- Everything a step that answers next can do. -/
theorem step_effect {s t : State} (h : step s = .next t) : s.Effect t := by
  obtain ⟨ht, rfl⟩ | ⟨rest, ht, hp⟩ | ⟨k, rest, ht, rfl⟩ | ⟨k, rest, ht, rfl⟩ := step_next h
  · have hw : t.Effect t.turnUsed := .waits fun k r hp => by simpa [ht] using hp.head
    rwa [State.turnUsed_of_nil ht] at hw
  · rw [State.turnUsed_of_cons ht] at hp
    have presents {it : HostItem} {items r} (hh : s.host = it :: items) (hr : it.request = r) :
        s.HostPresents it.target r := ⟨rest, items, ht, by rw [hh, ← hr]⟩
    obtain ⟨hh, rfl⟩ | ⟨it, items, w, c, hh, hr, hc, -, hb, rfl⟩ |
      ⟨it, items, w, i, c, hh, hr, hd, hc, hb, rfl⟩ | ⟨it, items, cfg, c, hh, hr, hc, ha, rfl⟩ := State.present_next hp
    · refine .waits fun k r hk => ?_
      obtain ⟨_, _, -, hk⟩ := hk
      exact absurd (hk.symm.trans hh) (List.cons_ne_nil _ _)
    · exact .holds (presents hh hr) hc hb
    · exact .accepts (presents hh hr) hd hc hb
    · exact .resets (presents hh hr) hc ha
  · rw [State.turnUsed_of_cons ht]
    exact State.effect_turnOf ht (.inl rfl) .inl
  · rw [State.turnUsed_of_cons ht]
    exact State.effect_turnOf ht (.inr rfl) .inr

/-- An entry of a list after one entry is set is the new one, or another one as before. -/
theorem getElem?_set_eq_some {α : Type} {l : List α} {k j : Nat} {a d : α} (hd : (l.set k a)[j]? = some d) :
    (k = j ∧ d = a) ∨ (k ≠ j ∧ l[j]? = some d) := by
  by_cases hkj : k = j
  · subst hkj
    have hlt : k < (l.set k a).length := (List.getElem?_eq_some_iff.mp hd).1
    rw [List.getElem?_set_self (by simpa using hlt)] at hd
    exact .inl ⟨rfl, (Option.some.inj hd).symm⟩
  · rw [List.getElem?_set_ne hkj] at hd
    exact .inr ⟨hkj, hd⟩

/-- R17 to R19, R21: a core's control fields stand, or a reset or a command is presented to it. -/
theorem step_control {s t : State} {k : Nat} {c d : CoreInst} (h : step s = .next t) (hc : s.insts[k]? = some c)
    (hd : t.insts[k]? = some d) :
    d.control = c.control ∨ (∃ cfg, s.HostPresents k (.reset cfg)) ∨
      ∃ w i, s.HostPresents k (.command w) ∧ decode w = .ok i ∧ d = ruleOf i c := by
  have unchanged (hd : s.insts[k]? = some d) : d.control = c.control := by
    rw [Option.some.inj (hd.symm.trans hc)]
  cases step_effect h with
  | waits => exact .inl (unchanged hd)
  | holds => exact .inl (unchanged hd)
  | @accepts j w i b hp hw hb =>
    obtain ⟨rfl, rfl⟩ | ⟨-, hd⟩ := getElem?_set_eq_some hd
    · obtain rfl : b = c := Option.some.inj (hb.symm.trans hc)
      exact .inr (.inr ⟨w, i, hp, hw, rfl⟩)
    · exact .inl (unchanged hd)
  | resets hp =>
    obtain ⟨rfl, rfl⟩ | ⟨-, hd⟩ := getElem?_set_eq_some hd
    · exact .inr (.inl ⟨_, hp⟩)
    · exact .inl (unchanged hd)
  | @moves j b _ _ hb hm =>
    obtain ⟨b', o, e, rfl, hcontrol⟩ := hm.frame
    obtain ⟨rfl, rfl⟩ | ⟨-, hd⟩ := getElem?_set_eq_some hd
    · obtain rfl : b = c := Option.some.inj (hb.symm.trans hc)
      exact .inl hcontrol
    · exact .inl (unchanged hd)

/-- Settles O44: outside a reset the control fields change by an accepted command only, and each by its setter. -/
theorem onlySettersAndResetWriteControl : Obligations.OnlySettersAndResetWriteControl := by
  intro s t k c d h hc hd
  obtain hcontrol | hreset | ⟨w, i, hp, hw, rfl⟩ := step_control h hc hd
  · obtain ⟨hchip, hzc, hatt, hgain⟩ := CoreInst.control_eq_iff.mp hcontrol
    exact ⟨absurd hchip, absurd hzc, absurd hatt, absurd hgain⟩
  · exact ⟨fun _ => hreset, fun _ => .inl hreset, fun _ => .inl hreset, fun _ => .inl hreset⟩
  · rw [ruleOf_eq]
    refine ⟨absurd (writeField_chipAddr i c), fun hne => .inr ⟨w, ?_⟩, fun hne => .inr ⟨w, ?_⟩,
      fun hne => .inr ⟨w, ?_⟩⟩ <;> by_contra hno
    · exact hne (writeField_zc c fun e hi => hno ⟨e, hp, hi ▸ hw⟩)
    · exact hne (writeField_attLink c fun e hi => hno ⟨e, hp, hi ▸ hw⟩)
    · exact hne (writeField_gainLink c fun e hi => hno ⟨e, hp, hi ▸ hw⟩)

/-- R27, R106: a step sets at most one core, the one that its turn is about. -/
theorem step_insts {s t : State} (h : step s = .next t) :
    t.insts = s.insts ∨
    ∃ k d, t.insts = s.insts.set k d ∧
      (s.turns.head? = some (.framer k) ∨ s.turns.head? = some (.transport k) ∨ ∃ r, s.HostPresents k r) := by
  cases step_effect h with
  | waits => exact .inl rfl
  | holds => exact .inl rfl
  | accepts hp => exact .inr ⟨_, _, rfl, .inr (.inr ⟨_, hp⟩)⟩
  | resets hp => exact .inr ⟨_, _, rfl, .inr (.inr ⟨_, hp⟩)⟩
  | moves ht _ hm =>
    obtain ⟨d, o, e, rfl, -⟩ := hm.frame
    exact .inr ⟨_, d, rfl, ht.imp_right .inl⟩

/-- Settles O45: the cores are as before, or one entry is set and it is the one the turn is about. -/
theorem stepsTouchOneCore : Obligations.StepsTouchOneCore := by
  intro s t h
  obtain hsame | ⟨k, d, hset, hturn⟩ := step_insts h
  · exact ⟨by rw [hsame], fun k hne => absurd (by rw [hsame]) hne⟩
  · refine ⟨by rw [hset, List.length_set], fun j hne => ?_⟩
    obtain rfl : k = j := by
      by_contra hkj
      exact hne (by rw [hset, List.getElem?_set_ne hkj])
    exact hturn

/-- Settles O46: only an acceptance moves the index, and no other step finds a command at a ready core. -/
theorem commandIndexCountsAcceptances : Obligations.CommandIndexCountsAcceptances := by
  intro s t h
  cases step_effect h with
  | waits hno => exact .inl ⟨rfl, fun k w _ hp => absurd hp (hno k _)⟩
  | @holds k w b hk hb hbusy =>
    refine .inl ⟨rfl, fun j _ c hj hc => ?_⟩
    obtain ⟨rfl, -⟩ := hj.unique hk
    rwa [Option.some.inj (hc.symm.trans hb)]
  | accepts hp hw hc hr => exact .inr ⟨rfl, rfl, _, _, _, _, hp, hw, hc, hr⟩
  | resets hk => exact .inl ⟨rfl, fun _ _ _ hj => by simpa using (hj.unique hk).2⟩
  | moves ht _ hm =>
    obtain ⟨d, o, e, rfl, -⟩ := hm.frame
    refine .inl ⟨rfl, fun _ _ _ hj => ?_⟩
    rw [hj.head] at ht
    simp at ht

end Sys2Proof.Machine
end

section
/-! PROOFS. Every step keeps the invariant of the framer and the bus (spec R23, R34, R80, R89, R91, R92). A host's
turn sets an idle core to an idle core. A move of a framer or of the transport sends the next of the six
events of its core's head frame, and the sixth completes that frame. -/

namespace Sys2Proof.Machine

section InProgress
variable {s : State} {k : Nat} {c : CoreInst} {f : Frame} {fs : List Frame}

theorem State.inProgress_of_free (ho : s.owner = none) : s.inProgress = [] := by
  simp [State.inProgress, ho]

theorem State.inProgress_of_owner (ho : s.owner = some k) (hc : s.insts[k]? = some c) (hf : c.pending = f :: fs) :
    s.inProgress = (wire k f).take c.phase.progress := by
  simp [State.inProgress, ho, hc, hf]

/-- Setting a core that does not own the bus leaves the frame in progress. -/
theorem State.inProgress_set {t : State} (d : CoreInst) (hk : s.owner ≠ some k) (ho : t.owner = s.owner)
    (hi : t.insts = s.insts.set k d) : t.inProgress = s.inProgress := by
  cases hs : s.owner with
  | none => rw [State.inProgress_of_free hs, State.inProgress_of_free (ho.trans hs)]
  | some j =>
    have hkj : k ≠ j := fun h => hk (h ▸ hs)
    simp only [State.inProgress, ho, hs, hi, List.getElem?_set_ne hkj]

/-- Whole frames and then less than all six events of one more read off as the whole frames. -/
theorem framesOn_whole (ps : List (Nat × Frame)) (k : Nat) (f : Frame) {n : Nat} (h : n ≤ 5) :
    framesOn (ps.flatMap (fun p => wire p.1 p.2) ++ (wire k f).take n) = ps := by
  rw [framesOn_flatMap_wire, framesOn_take_wire k f h, List.append_nil]

theorem framesOn_flatMap (ps : List (Nat × Frame)) : framesOn (ps.flatMap fun p => wire p.1 p.2) = ps := by
  simpa [framesOn] using framesOn_flatMap_wire ps []

end InProgress

section Ownership
variable {s : State} {k : Nat} {c : CoreInst}

/-- R91: the bus is not owned by an idle core. -/
theorem State.Inv.owner_ne_of_idle (hs : s.Inv) (hc : s.insts[k]? = some c) (hidle : c.phase = .idle) :
    s.owner ≠ some k :=
  fun ho => (hs.ownership k c hc).mp ho hidle

/-- R91: a core in mid-frame owns the bus. -/
theorem State.Inv.owner_of_midFrame (hs : s.Inv) (hc : s.insts[k]? = some c) (hmid : c.phase ≠ .idle) :
    s.owner = some k :=
  (hs.ownership k c hc).mpr hmid

theorem State.Inv.core (hs : s.Inv) (hc : s.insts[k]? = some c) : c.Inv :=
  hs.cores c (List.mem_of_getElem? hc)

/-- R98, R82: a core that admits a reset is idle. -/
theorem CoreInst.Inv.idle_of_resetAdmitted (hc : c.Inv) (h : c.resetAdmitted = true) : c.phase = .idle := by
  obtain hlive | ⟨hidle, -⟩ := c.resetAdmitted_iff.mp h
  · by_contra hmid
    exact hc.inFlight hmid (hc.notLive hlive)
  · exact hidle

end Ownership

section Cores

/-- R80, R98: the rule of a command keeps the core's invariant when the core is ready. -/
theorem CoreInst.Inv.ruleOf {c : CoreInst} (hc : c.Inv) (hr : c.cmdReady = true) (i : Instr) :
    (ruleOf i c).Inv := by
  obtain ⟨hlive, hidle, hempty⟩ := c.cmdReady_iff.mp hr
  rw [ruleOf_eq, hempty, List.nil_append]
  exact {
    csLevel := by simpa using hc.csLevel
    inFlight := fun hmid => absurd (by simpa using hidle) hmid
    notLive := fun hdead => by simp [hlive] at hdead
    atMostFour := length_emits_le i c
    legal := fun f hf => by simpa using legal_of_mem_emits hf }

/-- R107: a core just constructed meets the invariant. -/
theorem CoreInst.constructed_inv (cfg : Int) : (CoreInst.constructed cfg).Inv where
  csLevel := rfl
  inFlight := fun hmid => absurd rfl hmid
  notLive := fun _ => rfl
  atMostFour := Nat.zero_le _
  legal := fun _ hf => absurd hf List.not_mem_nil

end Cores

section Keeps
variable {s t : State} {k : Nat} {c d : CoreInst}

/-- The invariant reads the cores, the bus owner and the bus events. -/
theorem State.Inv.congr (hs : s.Inv) (hi : t.insts = s.insts) (ho : t.owner = s.owner) (ht : t.trace = s.trace) :
    t.Inv := by
  have hp : t.inProgress = s.inProgress := by simp only [State.inProgress, hi, ho]
  constructor
  · rw [hi]; exact hs.cores
  · rw [hi, ho]; exact hs.ownership
  · rw [hi, ho]; exact hs.ownerExists
  · rw [ht, hp]; exact hs.wholeFrames
  · rw [ht]; exact hs.sentLegal

/-- What is left to show of the invariant when one core has been set: about that core, the owner and the trace. -/
theorem State.Inv.of_set (hs : s.Inv) (hc : s.insts[k]? = some c) (hi : t.insts = s.insts.set k d) (hd : d.Inv)
    (hk : t.owner = some k ↔ d.phase ≠ .idle) (hothers : ∀ j, k ≠ j → (t.owner = some j ↔ s.owner = some j))
    (hwhole : t.trace = (framesOn t.trace).flatMap (fun p => wire p.1 p.2) ++ t.inProgress)
    (hlegal : ∀ p ∈ framesOn t.trace, ∃ chip, p.2.Legal chip) : t.Inv where
  cores := by
    rw [hi]
    exact fun a ha => (List.mem_or_eq_of_mem_set ha).elim (hs.cores a) (· ▸ hd)
  ownership := fun j a ha => by
    rw [hi] at ha
    obtain ⟨rfl, rfl⟩ | ⟨hkj, ha⟩ := getElem?_set_eq_some ha
    · exact hk
    · exact (hothers j hkj).trans (hs.ownership j a ha)
  ownerExists := fun j hj => by
    rw [hi, List.length_set]
    by_cases hkj : k = j
    · exact hkj ▸ (List.getElem?_eq_some_iff.mp hc).1
    · exact hs.ownerExists j ((hothers j hkj).mp hj)
  wholeFrames := hwhole
  sentLegal := hlegal

/-- An idle core set to an idle core that meets the invariant, the bus as it was: the host's turns. -/
theorem State.Inv.set_idle (hs : s.Inv) (hc : s.insts[k]? = some c) (hidle : c.phase = .idle) (hd : d.Inv)
    (hdidle : d.phase = .idle) (hi : t.insts = s.insts.set k d) (ho : t.owner = s.owner)
    (ht : t.trace = s.trace) : t.Inv := by
  have hk := hs.owner_ne_of_idle hc hidle
  refine hs.of_set hc hi hd ?_ (fun j _ => by rw [ho]) ?_ ?_
  · rw [ho]
    exact iff_of_false hk (absurd hdidle)
  · rw [ht, State.inProgress_set d hk ho hi]
    exact hs.wholeFrames
  · rw [ht]
    exact hs.sentLegal

end Keeps

section Moves
variable {s t : State} {k : Nat} {c : CoreInst} {f : Frame} {fs : List Frame} {e : BusEvent} {p : Phase}

/-- Core `k` goes on in its head frame: phase `p`, with `e` the frame's next event (R83 to R87). -/
def State.advance (s : State) (k : Nat) (c : CoreInst) (p : Phase) (e : BusEvent) : State :=
  { s with
    insts := s.insts.set k { c with phase := p, csN := !p.selecting }, owner := some k, trace := s.trace ++ [e] }

/-- Core `k` completes its head frame and has `fs` left to send (R88). -/
def State.complete (s : State) (k : Nat) (c : CoreInst) (fs : List Frame) : State :=
  { s with
    insts := s.insts.set k { c with phase := .idle, pending := fs }, owner := none, trace := s.trace ++ [.release k] }

/-- Phase `p` follows phase `q`, and `e` is the event of core `k`'s frame `f` that takes it there (R89). -/
structure Phase.Next (q : Phase) (k : Nat) (f : Frame) (p : Phase) (e : BusEvent) : Prop where
  midFrame : p ≠ .idle
  progress : p.progress = q.progress + 1
  event : (wire k f)[q.progress]? = some e

/-- A core that owns the bus goes on by setting its phase and its select line to that phase's level. -/
theorem State.emit_eq_advance {b : Bool} (ho : s.owner = some k) (hb : b = !p.selecting) :
    s.emit k { c with phase := p, csN := b } e = s.advance k c p e := by
  simp [State.emit, State.advance, ho, hb]

/-- Under the invariant a move is one of the six transitions of its core's head frame: one of the five that go on
in it or the one that completes it. -/
theorem State.Moves.cases (hs : s.Inv) (hc : s.insts[k]? = some c) (hm : s.Moves k c t) :
    ∃ f fs, c.pending = f :: fs ∧ (c.phase = .idle → s.owner = none) ∧
      ((∃ p e, c.phase.Next k f p e ∧ t = s.advance k c p e) ∨
       (c.phase = .deselected ∧ t = s.complete k c fs)) := by
  have hcs := (hs.core hc).csLevel
  rcases hm with hm | hm
  · obtain ⟨hp, hne, hfree, rfl⟩ | hm := State.framerStep_some hm
    · obtain ⟨f, fs, hf⟩ := List.exists_cons_of_ne_nil hne
      refine ⟨f, fs, hf, fun _ => hfree, .inl ⟨.acquired, .acquire k Config.bus, ?_, ?_⟩⟩
      · exact hp ▸ ⟨by decide, rfl, rfl⟩
      · simp [State.emit, State.advance, hcs, hp, Phase.selecting]
    · have hmid : c.phase ≠ .idle := by
        intro hp
        simp [hp] at hm
      obtain ⟨f, fs, hf⟩ := List.exists_cons_of_ne_nil ((hs.core hc).inFlight hmid)
      have ho := hs.owner_of_midFrame hc hmid
      refine ⟨f, fs, hf, fun hp => absurd hp hmid, ?_⟩
      obtain ⟨hp, rfl⟩ | ⟨hp, rfl⟩ | ⟨hp, rfl⟩ := hm
      · exact .inl ⟨.selected, _, hp ▸ ⟨by decide, rfl, rfl⟩, State.emit_eq_advance ho rfl⟩
      · exact .inl ⟨.deselected, _, hp ▸ ⟨by decide, rfl, rfl⟩, State.emit_eq_advance ho rfl⟩
      · exact .inr ⟨hp, by rw [hf]; rfl⟩
  · obtain ⟨f, fs, hf, hm⟩ := State.transportStep_some hm
    have hmid : c.phase ≠ .idle := by
      intro hp
      simp [hp] at hm
    have ho := hs.owner_of_midFrame hc hmid
    refine ⟨f, fs, hf, fun hp => absurd hp hmid, .inl ?_⟩
    obtain ⟨hp, rfl⟩ | ⟨hp, rfl⟩ := hm
    · exact ⟨.sentData, _, hp ▸ ⟨by decide, rfl, rfl⟩, State.emit_eq_advance ho (by rw [hcs, hp]; rfl)⟩
    · exact ⟨.sentAddr, _, hp ▸ ⟨by decide, rfl, rfl⟩, State.emit_eq_advance ho (by rw [hcs, hp]; rfl)⟩

/-- R89: the bus before a move carries whole frames and what its core has sent of its head frame. -/
theorem State.Inv.trace_eq (hs : s.Inv) (hc : s.insts[k]? = some c) (hf : c.pending = f :: fs)
    (hfree : c.phase = .idle → s.owner = none) :
    s.trace = (framesOn s.trace).flatMap (fun p => wire p.1 p.2) ++ (wire k f).take c.phase.progress := by
  have hprogress : s.inProgress = (wire k f).take c.phase.progress := by
    by_cases hidle : c.phase = .idle
    · rw [State.inProgress_of_free (hfree hidle), hidle]
      rfl
    · exact State.inProgress_of_owner (hs.owner_of_midFrame hc hidle) hc hf
  rw [← hprogress]
  exact hs.wholeFrames

/-- R91: while core `k` may move no other core owns the bus. -/
theorem State.Inv.owner_ne_other (hs : s.Inv) (hc : s.insts[k]? = some c) (hfree : c.phase = .idle → s.owner = none)
    {j : Nat} (hkj : k ≠ j) : s.owner ≠ some j := by
  by_cases hidle : c.phase = .idle
  · simp [hfree hidle]
  · simp [hs.owner_of_midFrame hc hidle, hkj]

/-- A move that goes on in the head frame keeps the invariant: the frame in progress grows by its next event. -/
theorem State.Inv.advance (hs : s.Inv) (hc : s.insts[k]? = some c) (hf : c.pending = f :: fs)
    (hfree : c.phase = .idle → s.owner = none) (hn : c.phase.Next k f p e) : (s.advance k c p e).Inv := by
  obtain ⟨hmid, hprogress, hevent⟩ := hn
  have hcore := hs.core hc
  have htrace : (s.advance k c p e).trace =
      (framesOn s.trace).flatMap (fun p => wire p.1 p.2) ++ (wire k f).take p.progress := by
    rw [hprogress, List.take_add_one, hevent, ← List.append_assoc, ← hs.trace_eq hc hf hfree]
    rfl
  have hframes : framesOn (s.advance k c p e).trace = framesOn s.trace := by
    rw [htrace, framesOn_whole _ _ _ p.progress_le]
  refine hs.of_set (d := { c with phase := p, csN := !p.selecting }) hc rfl ?_ ?_ ?_ ?_ ?_
  · exact { hcore with csLevel := rfl, inFlight := fun _ => by simp [hf] }
  · exact iff_of_true rfl hmid
  · exact fun j hkj => iff_of_false (by simpa [State.advance] using hkj) (hs.owner_ne_other hc hfree hkj)
  · have hk := (List.getElem?_eq_some_iff.mp hc).1
    have hprog : (s.advance k c p e).inProgress = (wire k f).take p.progress :=
      State.inProgress_of_owner (c := { c with phase := p, csN := !p.selecting }) rfl
        (List.getElem?_set_self hk) hf
    rw [hframes, htrace, hprog]
  · rw [hframes]
    exact hs.sentLegal

/-- The move that completes the head frame keeps the invariant: the bus carries one more whole frame. -/
theorem State.Inv.complete (hs : s.Inv) (hc : s.insts[k]? = some c) (hf : c.pending = f :: fs)
    (hp : c.phase = .deselected) : (s.complete k c fs).Inv := by
  have hfree : c.phase = .idle → s.owner = none := by simp [hp]
  have hcore := hs.core hc
  have htrace : (s.complete k c fs).trace =
      (framesOn s.trace ++ [(k, f)]).flatMap fun p => wire p.1 p.2 := by
    have h : (s.complete k c fs).trace = s.trace ++ [.release k] := rfl
    rw [h, hs.trace_eq hc hf hfree, hp, framesOn_whole _ _ _ (by decide)]
    simp [wire, Phase.progress]
  have hframes : framesOn (s.complete k c fs).trace = framesOn s.trace ++ [(k, f)] := by
    rw [htrace, framesOn_flatMap]
  refine hs.of_set (d := { c with phase := .idle, pending := fs }) hc rfl ?_ ?_ ?_ ?_ ?_
  · have hlen := hcore.atMostFour
    have hlegal := hcore.legal
    rw [hf] at hlen hlegal
    exact {
      csLevel := by simp [hcore.csLevel, hp, Phase.selecting]
      inFlight := fun hmid => absurd rfl hmid
      notLive := fun hdead => by simp [hcore.notLive hdead] at hf
      atMostFour := Nat.le_of_succ_le hlen
      legal := fun g hg => hlegal g (List.mem_cons_of_mem f hg) }
  · exact iff_of_false (by simp [State.complete]) (absurd rfl)
  · exact fun j hkj => iff_of_false (by simp [State.complete]) (hs.owner_ne_other hc hfree hkj)
  · rw [hframes, htrace, State.inProgress_of_free rfl, List.append_nil]
  · rw [hframes]
    intro q hq
    obtain hq | rfl := List.mem_append.mp hq |>.imp_right List.mem_singleton.mp
    · exact hs.sentLegal q hq
    · exact ⟨c.chipAddr, hcore.legal f (by simp [hf])⟩

theorem State.Inv.moves (hs : s.Inv) (hc : s.insts[k]? = some c) (hm : s.Moves k c t) : t.Inv := by
  obtain ⟨f, fs, hf, hfree, ⟨p, e, hn, rfl⟩ | ⟨hp, rfl⟩⟩ := hm.cases hs hc
  · exact hs.advance hc hf hfree hn
  · exact hs.complete hc hf hp

end Moves

/-- Settles O39, by the kinds of step: a turn without effect, a host's turn at an idle core, a move. -/
theorem everyStepKeepsTheInvariant : Obligations.EveryStepKeepsTheInvariant := by
  intro s t hs h
  cases step_effect h with
  | waits => exact hs.congr rfl rfl rfl
  | holds => exact hs.congr rfl rfl rfl
  | @accepts k w i c _ _ hc hr =>
    have hidle := (c.cmdReady_iff.mp hr).2.1
    exact hs.set_idle hc hidle ((hs.core hc).ruleOf hr i) (by simpa [ruleOf_eq] using hidle) rfl rfl rfl
  | @resets k cfg c _ hc ha =>
    exact hs.set_idle hc ((hs.core hc).idle_of_resetAdmitted ha) (CoreInst.constructed_inv cfg) rfl rfl rfl rfl
  | moves _ hc hm =>
    have hused : s.turnUsed.Inv := hs.congr rfl rfl rfl
    exact hused.moves hc hm

end Sys2Proof.Machine
end

section
/-! PROOFS. The packed state byte and the chip address (spec R21, R22). -/

namespace Sys2Proof.Machine

/-- R22: the bits of the state byte. -/
theorem packState_getLsbD (c : CoreInst) :
    (packState c).getLsbD 7 = c.attLink ∧ (packState c).getLsbD 6 = c.gainLink ∧
    (packState c).getLsbD 5 = (!c.zc) ∧ ∀ k, k < 5 → (packState c).getLsbD k = false := by
  unfold packState
  cases c.attLink <;> cases c.gainLink <;> cases c.zc <;> decide

/-- Settles O14: the three booleans are read off the bits that carry them. -/
theorem stateByteLayout : Obligations.StateByteLayout := by
  intro c
  obtain ⟨hatt, hgain, hzc, hlow⟩ := packState_getLsbD c
  refine ⟨hatt, hgain, hzc, hlow, fun d => ⟨fun h => ?_, ?_⟩⟩
  · obtain ⟨hatt', hgain', hzc', -⟩ := packState_getLsbD d
    rw [h] at hatt hgain hzc
    exact ⟨hatt.symm.trans hatt', hgain.symm.trans hgain', Bool.not_inj (hzc.symm.trans hzc')⟩
  · rintro ⟨h1, h2, h3⟩
    simp [packState, h1, h2, h3]

/-- R21: the chip address as a number. -/
theorem chipAddrOf_toNat (cfg : Int) : ((chipAddrOf cfg).toNat : Int) = cfg % 8 := by
  simp only [chipAddrOf, BitVec.toNat_ofNat]
  omega

/-- Settles O19, from the chip address as a number. -/
theorem chipAddressIsModEight : Obligations.ChipAddressIsModEight := by
  refine ⟨chipAddrOf_toNat, fun a b => ?_, by decide⟩
  rw [← BitVec.toNat_inj, ← chipAddrOf_toNat a, ← chipAddrOf_toNat b]
  exact Nat.cast_inj.symm

end Sys2Proof.Machine
end

section
/-! PROOFS. A command run to completion (spec R25, R36, R89): its acceptance, then one round of six turns for each
frame. A round on a core with nothing left to send only uses its turns up. -/

namespace Sys2Proof

/-- R41 to R45: the word of a well-formed command decodes to that command. -/
theorem decode_encode {i : Instr} (h : i.WellFormed) : decode (encode i) = .ok i := by
  have hfit : ∀ v ∈ i.operands, sext16 (numField v) = v := fun v hv => sext16_numField (h v hv)
  cases i with
  | setVol l r | setAtt l r | setGain l r =>
    simp [encode, decode, decodeFields, decodeTwo, hfit l (by simp [Instr.operands]),
      hfit r (by simp [Instr.operands])]
  | setVolL v | setVolR v | setAttL v | setAttR v | setGainL v | setGainR v =>
    simp [encode, decode, decodeFields, decodeOne, hfit v (by simp [Instr.operands])]
  | mute ml mr => simp [encode, decode, decodeFields, decodeFlags]
  | setZc e | setAttLink e | setGainLink e => simp [encode, decode, decodeFields, decodeFlag]

end Sys2Proof

namespace Sys2Proof.Machine

section Frame
variable {s : State} {k : Nat} {c : CoreInst} {f : Frame} {fs : List Frame} {rest : List Agent}

/-- `s` when core `k` has come to phase `p` of its head frame `f`, with the turns `rest` to come. -/
def State.inFrame (s : State) (k : Nat) (c : CoreInst) (f : Frame) (p : Phase) (rest : List Agent) : State :=
  { s with
    turns := rest
    owner := some k
    insts := s.insts.set k { c with phase := p, csN := !p.selecting }
    trace := s.trace ++ (wire k f).take p.progress }

/-- Whose turn takes core `k` from one phase of a frame to the next (R84 to R87). -/
inductive Phase.Turn (k : Nat) : Phase → Agent → Phase → Prop where
  | select : Turn k .acquired (.framer k) .selected
  | sendData : Turn k .selected (.transport k) .sentData
  | sendAddr : Turn k .sentData (.transport k) .sentAddr
  | deselect : Turn k .sentAddr (.framer k) .deselected

/-- R83: the turn that begins a frame. -/
theorem step_acquire (hc : s.insts[k]? = some c) (hf : c.pending = f :: fs) (hidle : c.phase = .idle)
    (hcs : c.csN = true) (ho : s.owner = none) (ht : s.turns = .framer k :: rest) :
    step s = .next (s.inFrame k c f .acquired rest) := by
  simp [step, ht, State.fire, State.turnOf, hc, State.framerStep, hidle, State.acquire, hf, ho, State.emit,
    State.inFrame, Phase.selecting, hcs, Phase.progress, wire]

/-- R84 to R87: the turns that go on in a frame. -/
theorem step_inFrame (hk : k < s.insts.length) (hf : c.pending = f :: fs) {p q : Phase} {a : Agent}
    (h : Phase.Turn k p a q) :
    step (s.inFrame k c f p (a :: rest)) = .next (s.inFrame k c f q rest) := by
  cases h <;>
    simp [step, State.fire, State.turnOf, State.framerStep, State.transportStep, State.select, State.sendData,
      State.sendAddr, State.deselect, State.emit, State.inFrame, Phase.selecting, Phase.progress, wire, hk, hf]

/-- R88: the turn that completes a frame. -/
theorem step_release (hk : k < s.insts.length) (hf : c.pending = f :: fs) (ho : s.owner = none) :
    step (s.inFrame k c f .deselected (.framer k :: rest)) =
      .next { s with
        turns := rest, insts := s.insts.set k { c with phase := .idle, csN := true, pending := fs },
        trace := s.trace ++ wire k f } := by
  simp [step, State.fire, State.turnOf, State.framerStep, State.release, State.emit, State.inFrame,
    Phase.selecting, Phase.progress, wire, hk, hf, ho]

/-- R89: one round of turns sends the head frame. -/
theorem run_frameTurns_of_cons (hc : s.insts[k]? = some c) (hf : c.pending = f :: fs) (hidle : c.phase = .idle)
    (hcs : c.csN = true) (ho : s.owner = none) (ht : s.turns = frameTurns k ++ rest) :
    s.run 6 = .next { s with
      turns := rest, insts := s.insts.set k { c with phase := .idle, csN := true, pending := fs },
      trace := s.trace ++ wire k f } := by
  have hk := (List.getElem?_eq_some_iff.mp hc).1
  simp only [frameTurns, List.cons_append, List.nil_append] at ht
  rw [State.run_succ _ (step_acquire hc hf hidle hcs ho ht), State.run_succ _ (step_inFrame hk hf .select),
    State.run_succ _ (step_inFrame hk hf .sendData), State.run_succ _ (step_inFrame hk hf .sendAddr),
    State.run_succ _ (step_inFrame hk hf .deselect), State.run_succ _ (step_release hk hf ho), State.run_zero]

end Frame

section Idle
variable {s : State} {k : Nat} {c : CoreInst} {rest : List Agent}

/-- Log 2: a turn at a core that is idle with nothing to send is used up. -/
theorem step_of_nothing_pending (hc : s.insts[k]? = some c) (hidle : c.phase = .idle) (hempty : c.pending = [])
    {a : Agent} (ha : a = .framer k ∨ a = .transport k) (ht : s.turns = a :: rest) :
    step s = .next { s with turns := rest } := by
  obtain rfl | rfl := ha <;>
    simp [step, ht, State.fire, State.turnOf, hc, State.framerStep, State.transportStep, hidle, State.acquire,
      hempty]

theorem run_of_nothing_pending (hc : s.insts[k]? = some c) (hidle : c.phase = .idle) (hempty : c.pending = [])
    {as : List Agent} (has : ∀ a ∈ as, a = .framer k ∨ a = .transport k) (ht : s.turns = as ++ rest) :
    s.run as.length = .next { s with turns := rest } := by
  induction as generalizing s with
  | nil =>
    obtain rfl : s.turns = rest := ht
    rfl
  | cons a as ih =>
    rw [List.forall_mem_cons] at has
    rw [List.length_cons, State.run_succ _ (step_of_nothing_pending hc hidle hempty has.1 ht)]
    exact ih hc has.2 rfl

end Idle

section Rounds
variable {s : State} {k : Nat} {c : CoreInst} {rest : List Agent}

/-- `s` when the first `n` frames of core `k` have been sent, with the turns `rest` to come. -/
def State.afterSending (s : State) (k : Nat) (c : CoreInst) (n : Nat) (rest : List Agent) : State :=
  { s with
    turns := rest
    insts := s.insts.set k { c with pending := c.pending.drop n }
    trace := s.trace ++ (c.pending.take n).flatMap (wire k) }

/-- Nothing is sent when nothing was to be sent or none of it was. -/
theorem State.afterSending_nothing (hc : s.insts[k]? = some c) {n : Nat} (h : c.pending = [] ∨ n = 0) :
    s.afterSending k c n rest = { s with turns := rest } := by
  have hpending : c.pending.drop n = c.pending ∧ c.pending.take n = [] := by
    obtain h | rfl := h <;> simp [*]
  have hset : s.insts.set k { c with pending := c.pending } = s.insts := by
    obtain ⟨hk, rfl⟩ := List.getElem?_eq_some_iff.mp hc
    exact List.set_getElem_self hk
  simp [State.afterSending, hpending, hset]

theorem State.afterSending_add (s : State) (k : Nat) (c : CoreInst) (m n : Nat) (rest' : List Agent) :
    (s.afterSending k c m rest').afterSending k { c with pending := c.pending.drop m } n rest =
      s.afterSending k c (m + n) rest := by
  simp [State.afterSending, List.take_add]

/-- One round of turns sends the head frame if there is one. -/
theorem run_frameTurns (hc : s.insts[k]? = some c) (hidle : c.phase = .idle) (hcs : c.csN = true)
    (ho : s.owner = none) (ht : s.turns = frameTurns k ++ rest) :
    s.run 6 = .next (s.afterSending k c 1 rest) := by
  cases hf : c.pending with
  | nil =>
    rw [State.afterSending_nothing hc (.inl hf)]
    exact run_of_nothing_pending hc hidle hf (as := frameTurns k) (by simp [frameTurns]) ht
  | cons f fs =>
    rw [run_frameTurns_of_cons hc hf hidle hcs ho ht]
    simp [State.afterSending, hf, hidle, hcs]

/-- R36: `n` rounds of turns send the first `n` frames, in order. -/
theorem run_rounds (n : Nat) (hc : s.insts[k]? = some c) (hidle : c.phase = .idle) (hcs : c.csN = true)
    (ho : s.owner = none) (ht : s.turns = (List.replicate n (frameTurns k)).flatten ++ rest) :
    s.run (6 * n) = .next (s.afterSending k c n rest) := by
  induction n generalizing s c with
  | zero =>
    obtain rfl : s.turns = rest := ht
    rw [State.afterSending_nothing hc (.inr rfl)]
    rfl
  | succ n ih =>
    rw [List.replicate_succ, List.flatten_cons, List.append_assoc] at ht
    have hk := (List.getElem?_eq_some_iff.mp hc).1
    have hlater := ih (s := s.afterSending k c 1 _) (c := { c with pending := c.pending.drop 1 })
      (List.getElem?_set_self hk) hidle hcs ho rfl
    rw [State.afterSending_add] at hlater
    rw [Nat.mul_succ, Nat.add_comm _ 6, State.run_add _ (run_frameTurns hc hidle hcs ho ht), hlater, Nat.add_comm]

end Rounds

/-- R25: the step at which a ready core accepts a command that the host presents. -/
theorem step_accepts {s : State} {c : CoreInst} {k : Nat} {w : CmdWord} {i : Instr}
    (hp : s.HostPresents k (.command w)) (hd : decode w = .ok i)
    (hr : State.Ready { s.turnUsed with port := k } c) :
    step s = .next (State.accepted { s.turnUsed with port := k } { writeField i c with pending := emits i c }) := by
  rw [hp.step_command, State.command_ok hd, exec_of_ready i hr]

/-- Settles O34: the acceptance is one step, and four rounds send the at most four frames (R80). -/
theorem commandRunsToCompletion : Obligations.CommandRunsToCompletion := by
  intro s c k i items rest hwf hc hlive hidle hempty hcs ho hh ht
  have hk := (List.getElem?_eq_some_iff.mp hc).1
  have hlen := length_emits_le i c
  have haccept := step_accepts ⟨_, _, ht, hh⟩ (decode_encode hwf) (c := c) ⟨hc, hlive, hidle, hempty⟩
  have hrounds := run_rounds 4 (rest := rest)
    (s := State.accepted { s.turnUsed with port := k } { writeField i c with pending := emits i c })
    (List.getElem?_set_self hk) (by simpa using hidle) (by simpa using hcs) ho
    (by simp [State.turnUsed, ht, commandTurns, List.replicate])
  refine ⟨_, _, _, exec_of_ready i ⟨hc, hlive, hidle, hempty⟩, List.getElem?_set_self hk,
    (State.run_succ _ haccept).trans hrounds, ?_, ho, ?_⟩
  · simp [State.afterSending, State.accepted, State.turnUsed, hh, List.take_of_length_le hlen,
      List.drop_eq_nil_of_le hlen]
  · intro j hj
    obtain rfl := List.mem_singleton.mp hj
    refine ⟨{ writeField i c with pending := [] }, ?_, by simpa using hlive, by simpa using hidle, rfl⟩
    simp [State.afterSending, State.accepted, State.turnUsed, hk, List.drop_eq_nil_of_le hlen]

end Sys2Proof.Machine
end

section
/-! PROOFS. The frames of a step and the locations they write (spec R28, R29, R31, R35, R36, R112): a step releases a
head frame, accepts a command, or leaves every core's completed and pending frames as they are. -/

namespace Sys2Proof.Machine

/-- Settles O7: a ready core accepts the command, and its pending frames are those the command emits. -/
theorem commandsWriteOnlyTheirRegisters : Obligations.CommandsWriteOnlyTheirRegisters := by
  intro i s c h
  exact ⟨_, _, exec_of_ready i h, State.accepted_getElem?_port h.atPort _, fun _ hf => sends_of_mem_emits hf⟩

section StepFrames
variable {s t : State} {k : Nat} {c d : CoreInst} {f : Frame} {fs : List Frame} {e : BusEvent} {p : Phase}

theorem State.pendingOf_eq (hc : s.insts[k]? = some c) : s.pendingOf k = c.pending := by
  simp [State.pendingOf, hc]

theorem State.pendingOf_set_same (hc : s.insts[k]? = some c) (hi : t.insts = s.insts.set k d) :
    t.pendingOf k = d.pending := by
  have hk := (List.getElem?_eq_some_iff.mp hc).1
  exact State.pendingOf_eq (by rw [hi, List.getElem?_set_self hk])

theorem State.pendingOf_set_other {j : Nat} (hkj : k ≠ j) (hi : t.insts = s.insts.set k d) :
    t.pendingOf j = s.pendingOf j := by
  simp only [State.pendingOf, hi, List.getElem?_set_ne hkj]

/-- A core set to one with the same pending frames leaves every core's pending frames. -/
theorem State.pendingOf_set (hc : s.insts[k]? = some c) (hi : t.insts = s.insts.set k d)
    (hd : d.pending = c.pending) (j : Nat) : t.pendingOf j = s.pendingOf j := by
  by_cases hkj : k = j
  · rw [← hkj, State.pendingOf_set_same hc hi, State.pendingOf_eq hc, hd]
  · exact State.pendingOf_set_other hkj hi

theorem State.sentBy_congr (h : framesOn t.trace = framesOn s.trace) (j : Nat) : t.sentBy j = s.sentBy j := by
  simp only [State.sentBy, h]

theorem State.sentBy_append_same (h : framesOn t.trace = framesOn s.trace ++ [(k, f)]) :
    t.sentBy k = s.sentBy k ++ [f] := by
  simp [State.sentBy, h]

theorem State.sentBy_append_other {j : Nat} (hkj : k ≠ j) (h : framesOn t.trace = framesOn s.trace ++ [(k, f)]) :
    t.sentBy j = s.sentBy j := by
  simp [State.sentBy, h, hkj]

/-- R98: a core that admits a reset has nothing pending. -/
theorem CoreInst.Inv.pending_of_resetAdmitted (hc : c.Inv) (h : c.resetAdmitted = true) : c.pending = [] := by
  obtain hdead | ⟨-, hempty⟩ := c.resetAdmitted_iff.mp h
  · exact hc.notLive hdead
  · exact hempty

/-- R89: a move that goes on in the head frame completes no frame. -/
theorem State.Inv.framesOn_advance (hs : s.Inv) (hc : s.insts[k]? = some c) (hf : c.pending = f :: fs)
    (hfree : c.phase = .idle → s.owner = none) (hn : c.phase.Next k f p e) :
    framesOn (s.advance k c p e).trace = framesOn s.trace := by
  have htrace : (s.advance k c p e).trace =
      (framesOn s.trace).flatMap (fun p => wire p.1 p.2) ++ (wire k f).take p.progress := by
    rw [hn.progress, List.take_add_one, hn.event, ← List.append_assoc, ← hs.trace_eq hc hf hfree]
    rfl
  rw [htrace, framesOn_whole _ _ _ p.progress_le]

/-- R88, R89: the release of the head frame completes that frame. -/
theorem State.Inv.framesOn_complete (hs : s.Inv) (hc : s.insts[k]? = some c) (hf : c.pending = f :: fs)
    (hp : c.phase = .deselected) : framesOn (s.complete k c fs).trace = framesOn s.trace ++ [(k, f)] := by
  have htrace : (s.complete k c fs).trace =
      (framesOn s.trace).flatMap (fun p => wire p.1 p.2) ++ wire k f := by
    have hbefore := hs.trace_eq hc hf (by simp [hp])
    rw [hp] at hbefore
    calc s.trace ++ [.release k] = _ ++ (wire k f).take 5 ++ [.release k] := congrArg (· ++ [.release k]) hbefore
      _ = _ := List.append_assoc ..
  rw [htrace, framesOn_flatMap_wire]
  rfl

/-- R88: the transport has no move at a core whose select line is up again; the release is the framer's. -/
theorem framer_of_step_complete (ht : s.turns.head? = some (.framer k) ∨ s.turns.head? = some (.transport k))
    (hc : s.insts[k]? = some c) (hp : c.phase = .deselected) (h : step s = .next (s.turnUsed.complete k c fs)) :
    s.turns.head? = some (.framer k) := by
  refine ht.resolve_right fun htransport => ?_
  obtain ⟨rest, hturns⟩ := List.head?_eq_some_iff.mp htransport
  have hwaits : step s = .next s.turnUsed := by
    simp [step, hturns, State.fire, State.turnOf, hc, State.transportStep, hp, State.turnUsed]
  simpa [State.complete, State.turnUsed] using congrArg State.trace (Host.Outcome.next.inj (hwaits.symm.trans h))

/-- What a step does with frames: nothing, the acceptance of a command, or the release of a head frame. -/
theorem step_frames (hs : s.Inv) (h : step s = .next t) :
    (framesOn t.trace = framesOn s.trace ∧ ∀ j, t.pendingOf j = s.pendingOf j) ∨
    (∃ k w i c, s.HostPresents k (.command w) ∧ decode w = .ok i ∧ s.insts[k]? = some c ∧ c.cmdReady = true ∧
      t = State.accepted { s.turnUsed with port := k } (ruleOf i c)) ∨
    ∃ k c f fs, s.turns.head? = some (.framer k) ∧ s.insts[k]? = some c ∧ c.phase = .deselected ∧
      c.pending = f :: fs ∧ framesOn t.trace = framesOn s.trace ++ [(k, f)] ∧
      t.insts = s.insts.set k { c with phase := .idle, pending := fs } := by
  have hused : s.turnUsed.Inv := hs.congr rfl rfl rfl
  cases step_effect h with
  | waits => exact .inl ⟨rfl, fun _ => rfl⟩
  | holds => exact .inl ⟨rfl, fun _ => rfl⟩
  | accepts hp hw hc hr => exact .inr (.inl ⟨_, _, _, _, hp, hw, hc, hr, rfl⟩)
  | resets _ hc ha =>
    exact .inl ⟨rfl, State.pendingOf_set hc rfl ((hs.core hc).pending_of_resetAdmitted ha).symm⟩
  | moves ht hc hm =>
    obtain ⟨f, fs, hf, hfree, ⟨p, e, hn, rfl⟩ | ⟨hp, rfl⟩⟩ := hm.cases hused hc
    · exact .inl ⟨hused.framesOn_advance hc hf hfree hn, State.pendingOf_set hc rfl rfl⟩
    · exact .inr (.inr ⟨_, _, f, fs, framer_of_step_complete ht hc hp h, hc, hp, hf,
        hused.framesOn_complete hc hf hp, rfl⟩)

end StepFrames

/-- Settles O41: an acceptance finds nothing pending and completes nothing, and a release moves the head frame of its
core from the pending frames to the end of the completed ones. -/
theorem framesAreNeverLostOrReordered : Obligations.FramesAreNeverLostOrReordered := by
  intro s t hs h j
  obtain ⟨hsent, hpending⟩ | ⟨k, w, i, c, hp, hw, hc, hr, rfl⟩ | ⟨k, c, f, fs, -, hc, -, hf, hsent, hi⟩ :=
    step_frames hs h
  · exact .inl (by rw [State.sentBy_congr hsent, hpending])
  · by_cases hkj : k = j
    · subst hkj
      have hexec := (exec_eq_accept i { s.turnUsed with port := k }).trans (State.accept_ready hc hr)
      have hempty := (State.pendingOf_eq hc).trans (c.cmdReady_iff.mp hr).2.2
      exact .inr ⟨w, i, _, hp, hw, hexec, hempty, rfl⟩
    · exact .inl (congrArg (s.sentBy j ++ ·) (State.pendingOf_set_other hkj rfl))
  · left
    by_cases hkj : k = j
    · subst hkj
      rw [State.sentBy_append_same hsent, State.pendingOf_set_same hc hi, State.pendingOf_eq hc, hf,
        List.append_assoc, List.singleton_append]
    · rw [State.sentBy_append_other hkj hsent, State.pendingOf_set_other hkj hi]

section Space
variable {s t : State} {k : Nat} {f : Frame}

/-- The target space after more frames have been completed. -/
theorem State.space_of_framesOn_append {ps : List (Nat × Frame)} (h : framesOn t.trace = framesOn s.trace ++ ps) :
    t.space = s.space.afterFrames ps := by
  rw [State.space, h, Memory.afterFrames_append]
  rfl

theorem Memory.afterFrames_singleton (m : Memory) : m.afterFrames [(k, f)] = m.write f.addr.toNat f.data := rfl

/-- R34: on a free bus the frames to come follow the whole frames that the bus carries. -/
theorem State.Inv.framesOn_append (hs : s.Inv) (ho : s.owner = none) (rest : List BusEvent) :
    framesOn (s.trace ++ rest) = framesOn s.trace ++ framesOn rest := by
  have hwhole := hs.wholeFrames
  rw [State.inProgress_of_free ho, List.append_nil] at hwhole
  conv_lhs => rw [hwhole]
  exact framesOn_flatMap_wire ..

/-- The frames of one core on the bus read off as those frames. -/
theorem framesOn_flatMap_wire_of_core (k : Nat) (fs : List Frame) :
    framesOn (fs.flatMap (wire k)) = fs.map fun f => (k, f) := by
  rw [← framesOn_flatMap (fs.map fun f => (k, f)), List.flatMap_map]

/-- R61: a setter emits the one state write packed from the booleans as it leaves them. -/
theorem emits_of_isSetter {i : Instr} (h : IsSetter i) (c : CoreInst) :
    emits i c = [mkFrame .state (packState (writeField i c)) c.chipAddr] := by
  cases i with
  | setZc | setAttLink | setGainLink => rfl
  | _ => exact h.elim

end Space

/-- Settles O43: only a release completes a frame, and that frame is written to its own location. -/
theorem locationsChangeOnlyAtRelease : Obligations.LocationsChangeOnlyAtRelease := by
  intro s t hs h
  obtain ⟨hsent, -⟩ | ⟨k, w, i, c, -, -, -, -, rfl⟩ | ⟨k, c, f, fs, ht, hc, hp, hf, hsent, -⟩ :=
    step_frames hs h
  · exact .inl fun a => by simp only [State.space, hsent]
  · exact .inl fun _ => rfl
  · have hspace := State.space_of_framesOn_append hsent
    rw [Memory.afterFrames_singleton] at hspace
    refine .inr ⟨k, c, f, fs, ht, hc, hp, hf, ?_, fun a ha => ?_⟩
    · rw [hspace, Memory.read_write_same]
    · rw [hspace, Memory.read_write_other _ _ ha]

/-- Settles O35: the run of O34 appends the whole frames that the command emits, and a setter emits one of them, to
the state location. -/
theorem completedCommandWritesItsLocations : Obligations.CompletedCommandWritesItsLocations := by
  intro s c k i items rest hs hwf hc hlive hidle hempty ho hh ht
  have hk := (List.getElem?_eq_some_iff.mp hc).1
  have hcs : c.csN = true := by simp [(hs.core hc).csLevel, hidle, Phase.selecting]
  obtain ⟨t, u, c', hexec, hc', hrun, hfinal, -⟩ :=
    commandRunsToCompletion s c k i items rest hwf hc hlive hidle hempty hcs ho hh ht
  have hready : State.Ready { s with port := k } c := ⟨hc, hlive, hidle, hempty⟩
  obtain rfl := Host.Outcome.next.inj ((exec_of_ready i hready).symm.trans hexec)
  obtain rfl := Option.some.inj ((State.accepted_getElem?_port hready.atPort _).symm.trans hc')
  have hframes : framesOn t.trace = framesOn s.trace ++ (emits i c).map fun f => (k, f) := by
    rw [hfinal, hs.framesOn_append ho, framesOn_flatMap_wire_of_core]
  have hd : t.insts[k]? = some { writeField i c with pending := [] } := by
    rw [hfinal]
    exact List.getElem?_set_self hk
  have hspace := State.space_of_framesOn_append hframes
  refine ⟨t, _, _, _, hexec, hc', hrun, hd, hspace, fun hset => ?_⟩
  rw [hspace, emits_of_isSetter hset]
  exact Memory.read_write_same ..

end Sys2Proof.Machine
end

section
/-! PROOFS. A command's word and the opcode table, through the three fields of a word (spec R41 to R44). -/

namespace Sys2Proof

/-- R44: fields that are a command are the fields of that command's word, and its operands fit. -/
theorem encode_of_decodeFields {op : BitVec 8} {a b : Half} {i : Instr} (h : decodeFields op a b = .ok i) :
    i.WellFormed ∧ encode i = assembleWord op a b := by
  have hfits (f : Half) : -32768 ≤ sext16 f ∧ sext16 f ≤ 32767 := sext16_fits f
  rcases decodeFields_ok h with ⟨rfl, rfl⟩ | ⟨rfl, rfl, rfl⟩ | ⟨rfl, rfl, rfl⟩ | ⟨rfl, rfl⟩ | ⟨rfl, rfl, rfl⟩ |
    ⟨rfl, rfl, rfl⟩ | ⟨rfl, rfl⟩ | ⟨rfl, rfl, rfl⟩ | ⟨rfl, rfl, rfl⟩ | ⟨rfl, ha, hb, rfl⟩ | ⟨rfl, rfl, ha, rfl⟩ |
    ⟨rfl, rfl, ha, rfl⟩ | ⟨rfl, rfl, ha, rfl⟩
  all_goals
    constructor
    · simp [Instr.WellFormed, Instr.operands, OperandFits, hfits]
    · simp [encode, numField_sext16, flagField_flagOf, *]

/-- Settles O20, by the form of each command's word. -/
theorem decodeOfEncode : Obligations.DecodeOfEncode := fun _ => decode_encode

/-- Settles O21: a word is its three fields, and the fields of a command are those of its word. -/
theorem encodeOfDecode : Obligations.EncodeOfDecode := by
  intro w i h
  obtain ⟨hwf, hw⟩ := encode_of_decodeFields (decode_ok h)
  exact ⟨hwf, hw.trans (assembleWord_fields w)⟩

theorem assembleWord_and (op op' : BitVec 8) (a a' b b' : Half) :
    assembleWord op a b &&& assembleWord op' a' b' = assembleWord (op &&& op') (a &&& a') (b &&& b') := by
  rw [assembleWord, assembleWord, BitVec.and_append, BitVec.and_append, assembleWord]

theorem assembleWord_inj {op op' : BitVec 8} {a a' b b' : Half} :
    assembleWord op a b = assembleWord op' a' b' ↔ op = op' ∧ a = a' ∧ b = b' := by
  refine ⟨fun h => ?_, by rintro ⟨rfl, rfl, rfl⟩; rfl⟩
  exact ⟨by simpa using congrArg opField h, by simpa using congrArg aField h, by simpa using congrArg bField h⟩

/-- R44: the table row of the opcode `op` whose operand fields must be 0 where `ma` and `mb` are 1. -/
def fieldRow (op : BitVec 8) (ma mb : Half) : CmdWord × CmdWord :=
  (assembleWord op 0#16 0#16, assembleWord 0xFF#8 ma mb)

/-- R43, R44: the rows of the opcode table by their fields. -/
theorem opcodeRows_eq : opcodeRows =
    [fieldRow 0x10#8 0x0000#16 0x0000#16, fieldRow 0x11#8 0x0000#16 0xFFFF#16, fieldRow 0x12#8 0x0000#16 0xFFFF#16,
     fieldRow 0x20#8 0x0000#16 0x0000#16, fieldRow 0x21#8 0x0000#16 0xFFFF#16, fieldRow 0x22#8 0x0000#16 0xFFFF#16,
     fieldRow 0x30#8 0x0000#16 0x0000#16, fieldRow 0x31#8 0x0000#16 0xFFFF#16, fieldRow 0x32#8 0x0000#16 0xFFFF#16,
     fieldRow 0x40#8 0xFFFE#16 0xFFFE#16, fieldRow 0x50#8 0xFFFE#16 0xFFFF#16, fieldRow 0x51#8 0xFFFE#16 0xFFFF#16,
     fieldRow 0x52#8 0xFFFE#16 0xFFFF#16] := by
  decide

/-- A word matches a row if its opcode is the row's and its operand fields are 0 where they must be. -/
theorem rowMatches_fieldRow {w : CmdWord} {op : BitVec 8} {ma mb : Half} :
    rowMatches w (fieldRow op ma mb) = true ↔ opField w = op ∧ aField w &&& ma = 0#16 ∧ bField w &&& mb = 0#16 := by
  have hop : opField w &&& 0xFF#8 = opField w := BitVec.and_allOnes
  rw [rowMatches, beq_iff_eq, fieldRow]
  conv_lhs => rw [← assembleWord_fields w]
  rw [assembleWord_and, assembleWord_inj, hop]

/-- R44 (c): a boolean field is clean if it is 0 but for its lowest bit. -/
theorem flagClean_iff_and (f : Half) : flagClean f = true ↔ f &&& 0xFFFE#16 = 0#16 := by
  have hmask : 0xFFFE#16 = BitVec.allOnes 16 <<< 1 := by decide
  have hf := f.isLt
  rw [flagClean_iff, hmask, ← BitVec.shiftLeft_ushiftRight, ← BitVec.toNat_inj]
  simp [Nat.shiftRight_eq_div_pow, Nat.shiftLeft_eq]
  omega

/-- R43: a command's word matches the row of that command. -/
theorem rowMatches_encode (i : Instr) : rowMatches (encode i) (opcodeRows.getD (rowIndex i) (0#40, 0#40)) = true := by
  have hflag (e : Bool) : flagField e &&& 0xFFFE#16 = 0#16 := (flagClean_iff_and _).mp (flagClean_flagField e)
  rw [opcodeRows_eq]
  cases i <;> simp [rowIndex, encode, rowMatches_fieldRow, hflag]

/-- R43, R44: a word that matches a row of the table is a command. -/
theorem decode_of_rowMatches {w : CmdWord} {row : CmdWord × CmdWord} (hrow : row ∈ opcodeRows)
    (h : rowMatches w row = true) : ∃ i, decode w = .ok i := by
  simp only [opcodeRows_eq, List.mem_cons, List.not_mem_nil, or_false] at hrow
  have hzero : bField w &&& 0xFFFF#16 = 0#16 → bField w = 0#16 := BitVec.and_allOnes.symm.trans
  have hclean (f : Half) : f &&& 0xFFFE#16 = 0#16 → flagClean f = true := (flagClean_iff_and f).mpr
  rcases hrow with rfl | rfl | rfl | rfl | rfl | rfl | rfl | rfl | rfl | rfl | rfl | rfl | rfl
  all_goals
    obtain ⟨hop, ha, hb⟩ := rowMatches_fieldRow.mp h
    simp [decode, decodeFields, decodeTwo, decodeOne, decodeFlag, decodeFlags, hop, ha, hb, hzero, hclean]

/-- R43: a row holds the opcode of the words that match it. -/
theorem opField_of_rowMatches {w : CmdWord} {row : CmdWord × CmdWord} (hrow : row ∈ opcodeRows)
    (h : rowMatches w row = true) : opField row.1 = opField w := by
  have hmask : ∀ row ∈ opcodeRows, opField row.2 = BitVec.allOnes 8 := by simp [opcodeRows_eq, fieldRow]
  rw [← beq_iff_eq.mp h, opField, BitVec.extractLsb'_and, ← opField, ← opField, hmask row hrow,
    BitVec.and_allOnes]

/-- R43: no two rows hold the same opcode. -/
theorem nodup_rowOpcodes : (opcodeRows.map fun row => opField row.1).Nodup := by decide

/-- Settles O22: a command's word matches that command's row, and a word that matches two rows would have two
opcodes. -/
theorem decodeFollowsTheOpcodeTable : Obligations.DecodeFollowsTheOpcodeTable := by
  refine ⟨fun w i h => ?_, fun w ⟨row, hrow, h⟩ => decode_of_rowMatches hrow h,
    fun w m n row row' hm hn h h' => ?_⟩
  · rw [← (encodeOfDecode w i h).2]
    exact rowMatches_encode i
  · have hop : opField row.1 = opField row'.1 :=
      (opField_of_rowMatches (List.mem_of_getElem? hm) h).trans
        (opField_of_rowMatches (List.mem_of_getElem? hn) h').symm
    obtain ⟨hlt, -⟩ := List.getElem?_eq_some_iff.mp hm
    refine (List.getElem?_inj (by simpa using hlt) nodup_rowOpcodes).mp ?_
    rw [List.getElem?_map, List.getElem?_map, hm, hn]
    exact congrArg some hop

/-- Settles O23, by running the decoder. -/
theorem sampleWordsDecode : Obligations.SampleWordsDecode := ⟨rfl, rfl, rfl, rfl, rfl, rfl⟩

end Sys2Proof

namespace Sys2Proof.Machine

/-- Settles O12: NOP and MUTER write no field, and with the attenuation link set they emit no frame. -/
theorem pseudoInstructionsExpand : Obligations.PseudoInstructionsExpand := by
  refine ⟨fun _ => ⟨rfl, rfl, rfl⟩, rfl, rfl, rfl, rfl, fun s c h => ⟨?_, fun hlink => ?_⟩⟩
  · have hsame : { c with pending := [] } = c := by rw [← h.empty]
    have hset : s.insts.set s.port c = s.insts := by
      obtain ⟨hk, rfl⟩ := List.getElem?_eq_some_iff.mp h.atPort
      exact List.set_getElem_self hk
    rw [exec_of_ready _ h]
    simp [expandPseudo, writeField, emits, hsame, State.accepted, hset]
  · rw [exec_of_ready _ h]
    simp [expandPseudo, writeField, emits, unlessLinked, hlink, State.afterEmitting]

/-- R29: the register-select codes are 0 to 4. -/
theorem RegSel.exists_code_iff (n : Nat) : (∃ sel : RegSel, sel.code.toNat = n) ↔ n ≤ 4 := by
  constructor
  · rintro ⟨sel, rfl⟩
    cases sel <;> decide
  · intro h
    interval_cases n
    exacts [⟨.attL, rfl⟩, ⟨.gainL, rfl⟩, ⟨.attR, rfl⟩, ⟨.gainR, rfl⟩, ⟨.state, rfl⟩]

/-- R29: a select code names one register. -/
theorem RegSel.code_inj {sel sel' : RegSel} (h : sel.code.toNat = sel'.code.toNat) : sel = sel' := by
  revert h
  cases sel <;> cases sel' <;> decide

/-- R50: the address bytes are those of five select codes, bit 3 clear, and a three-bit chip address. -/
theorem exists_addressByte_iff (b : Byte) :
    (∃ sel a, addressByte sel a = b) ↔ b.toNat / 16 ≤ 4 ∧ b.toNat % 16 ≤ 7 := by
  constructor
  · rintro ⟨sel, a, rfl⟩
    have hcode := (RegSel.exists_code_iff _).mp ⟨sel, rfl⟩
    have ha := a.isLt
    rw [addressByte_toNat]
    omega
  · rintro ⟨hhigh, hlow⟩
    obtain ⟨sel, hsel⟩ := (RegSel.exists_code_iff _).mpr hhigh
    refine ⟨sel, BitVec.ofNat 3 (b.toNat % 16), BitVec.eq_of_toNat_eq ?_⟩
    rw [addressByte_toNat, hsel, BitVec.toNat_ofNat]
    omega

/-- R50: an address byte names one register of one chip. -/
theorem addressByte_inj {sel sel' : RegSel} {a b : ChipAddr} (h : addressByte sel a = addressByte sel' b) :
    sel = sel' ∧ a = b := by
  have ha := a.isLt
  have hb := b.isLt
  have hnat := congrArg BitVec.toNat h
  rw [addressByte_toNat, addressByte_toNat] at hnat
  exact ⟨RegSel.code_inj (by omega), BitVec.eq_of_toNat_eq (by omega)⟩

/-- Settles O13, from the address byte as a number. -/
theorem addressByteValues : Obligations.AddressByteValues := by
  refine ⟨fun a => ?_, exists_addressByte_iff, fun _ _ _ _ => addressByte_inj, fun _ _ _ => ⟨rfl, rfl⟩,
    fun _ _ _ => rfl⟩
  simp [addressByte_toNat, RegSel.code]

end Sys2Proof.Machine
end

section
/-! PROOFS. The texts of operands (spec R45): what the assembler reads is exactly what the text forms write. -/

namespace Sys2Proof.Machine

section Digits
variable {base : Nat} {c : Char} {d n : Nat} {cs : List Char}

/-- A character is the digit that its code, counted from `k`, says. -/
theorem digitOf_of_code {k : Nat} (hk : k ≤ c.toNat) (h : DigitOf base (Char.ofNat (c.toNat - k + k)) (c.toNat - k)) :
    DigitOf base c (c.toNat - k) := by
  rwa [Nat.sub_add_cancel hk, Char.ofNat_toNat] at h

/-- R45: the digits that the assembler reads in decimal. -/
theorem decDigit_eq_some : decDigit c = some d ↔ DigitOf 10 c d := by
  have hcode : ∀ d < 10, DigitOf 10 (Char.ofNat (d + 48)) d := by unfold DigitOf; decide
  constructor
  · intro h
    simp only [decDigit, Option.ite_none_right_eq_some, Option.some.injEq] at h
    obtain ⟨⟨hlo, hhi⟩, rfl⟩ := h
    exact digitOf_of_code hlo (hcode _ (by omega))
  · rintro ⟨hd, hc⟩
    interval_cases d <;> obtain hc | hc := hc <;> cases hc <;> rfl

/-- R45, log 11: the digits that the assembler reads in hexadecimal, of either case. -/
theorem hexDigit_eq_some : hexDigit c = some d ↔ DigitOf 16 c d := by
  have hdec : ∀ d < 10, DigitOf 16 (Char.ofNat (d + 48)) d := by unfold DigitOf; decide
  have hupper : ∀ d < 16, 10 ≤ d → DigitOf 16 (Char.ofNat (d + 55)) d := by unfold DigitOf; decide
  have hlower : ∀ d < 16, 10 ≤ d → DigitOf 16 (Char.ofNat (d + 87)) d := by unfold DigitOf; decide
  constructor
  · intro h
    unfold hexDigit at h
    split_ifs at h <;> obtain rfl := Option.some.inj h
    · exact digitOf_of_code (by omega) (hdec _ (by omega))
    · exact digitOf_of_code (by omega) (hupper _ (by omega) (by omega))
    · exact digitOf_of_code (by omega) (hlower _ (by omega) (by omega))
  · rintro ⟨hd, hc⟩
    interval_cases d <;> obtain hc | hc := hc <;> cases hc <;> rfl

/-- The number that is read is exactly the one the numeral writes. -/
theorem readNat_eq_some {digit : Char → Option Nat} (hdigit : ∀ {c d}, digit c = some d ↔ DigitOf base c d) :
    readNat base digit cs = some n ↔ Numeral base cs n := by
  have hvalue (ds : List Nat) : ds.foldl (fun a d => a * base + d) 0 = Nat.ofDigits base ds.reverse := by
    simp [Nat.ofDigits_eq_foldr, List.foldr_reverse, Nat.mul_comm, Nat.add_comm]
  unfold readNat Numeral
  cases cs with
  | nil => simp
  | cons c cs =>
    simp only [List.isEmpty_cons, Bool.false_eq_true, if_false, readDigits_eq_some, hdigit, hvalue]
    refine exists_congr fun ds => ⟨fun ⟨hds, hn⟩ => ⟨?_, hds, hn⟩, fun ⟨_, h⟩ => h⟩
    rintro rfl
    cases hds

/-- The characters of a number are digits. -/
theorem Numeral.digit_of_mem (h : Numeral base cs n) (hc : c ∈ cs) : ∃ d, DigitOf base c d := by
  obtain ⟨ds, -, hds, -⟩ := h
  induction hds with
  | nil => cases hc
  | cons hd _ ih =>
    obtain rfl | hc := List.mem_cons.mp hc
    · exact ⟨_, hd⟩
    · exact ih hc

theorem Numeral.ne_nil (h : Numeral base cs n) : cs ≠ [] := by
  rintro rfl
  obtain ⟨ds, hne, hds, -⟩ := h
  cases hds
  exact hne rfl

/-- A decimal digit is no sign, no separator and no letter. -/
theorem DigitOf.ne_of_decimal (h : DigitOf 10 c d) : c ≠ '-' ∧ c ≠ ' ' ∧ c ≠ ',' ∧ c ≠ ';' ∧ c ≠ 'x' := by
  obtain ⟨hd, hc⟩ := h
  interval_cases d <;> obtain hc | hc := hc <;> cases hc <;> decide

/-- Every natural number has a decimal numeral. -/
theorem exists_numeral (n : Nat) : ∃ cs, Numeral 10 cs n := by
  have hdigit : ∀ d < 10, DigitOf 10 (Nat.digitChar d) d := by unfold DigitOf; decide
  have hds : ∃ ds : List Nat, ds ≠ [] ∧ (∀ d ∈ ds, d < 10) ∧ n = Nat.ofDigits 10 ds := by
    obtain rfl | hn := eq_or_ne n 0
    · exact ⟨[0], by decide, by decide, rfl⟩
    · exact ⟨Nat.digits 10 n, Nat.digits_ne_nil_iff_ne_zero.mpr hn, fun _ => Nat.digits_lt_base (by decide),
        (Nat.ofDigits_digits 10 n).symm⟩
  obtain ⟨ds, hne, hlt, hn⟩ := hds
  refine ⟨ds.reverse.map Nat.digitChar, ds.reverse, by simpa using hne, ?_, by rwa [List.reverse_reverse]⟩
  rw [List.forall₂_map_left_iff, List.forall₂_same]
  exact fun d hd => hdigit d (hlt d (List.mem_reverse.mp hd))

end Digits

section Operands
variable {x : List Char} {v : Int} {e : Bool}

/-- R45: the texts that are read as a signed decimal integer. -/
theorem readInt_eq_some : readInt x = some v ↔ DecText x v := by
  have hnat {cs : List Char} {n : Nat} : readNat 10 decDigit cs = some n ↔ Numeral 10 cs n :=
    readNat_eq_some decDigit_eq_some
  constructor
  · intro h
    unfold readInt at h
    split at h <;> obtain ⟨n, hn, rfl⟩ := Option.map_eq_some_iff.mp h
    · exact .minus (hnat.mp hn)
    · exact .plain (hnat.mp hn)
  · rintro (@⟨_, n, h⟩ | @⟨cs, n, h⟩)
    · unfold readInt
      split
      · obtain ⟨d, hd⟩ := h.digit_of_mem List.mem_cons_self
        exact absurd rfl hd.ne_of_decimal.1
      · simp [hnat.mpr h]
    · simp [readInt, hnat.mpr h]

/-- A decimal integer stands in a line as one piece. -/
theorem DecText.piece (h : DecText x v) : Piece x := by
  have hmem {cs : List Char} {n : Nat} (h : Numeral 10 cs n) : ∀ c ∈ cs, c ≠ ' ' ∧ c ≠ ',' ∧ c ≠ ';' := by
    intro c hc
    obtain ⟨d, hd⟩ := h.digit_of_mem hc
    obtain ⟨-, hspace, hcomma, hsemi, -⟩ := hd.ne_of_decimal
    exact ⟨hspace, hcomma, hsemi⟩
  cases h with
  | plain h => exact ⟨h.ne_nil, hmem h⟩
  | minus h => exact ⟨by simp, List.forall_mem_cons.mpr ⟨by decide, hmem h⟩⟩

/-- Every integer has a decimal text. -/
theorem exists_decText (v : Int) : ∃ x, DecText x v := by
  obtain ⟨cs, h⟩ := exists_numeral v.natAbs
  obtain hv | hv := v.natAbs_eq
  · exact ⟨cs, hv ▸ .plain h⟩
  · exact ⟨'-' :: cs, hv ▸ .minus h⟩

/-- A text that begins as a hexadecimal field is no decimal integer. -/
theorem not_decText_hex {cs : List Char} : ¬ DecText ('0' :: 'x' :: cs) v := by
  rintro ⟨h⟩
  obtain ⟨d, hd⟩ := h.digit_of_mem (c := 'x') (by simp)
  exact hd.ne_of_decimal.2.2.2.2 rfl

/-- R42: a 16-bit field read as two's complement. -/
theorem sext16_ofNat {n : Nat} (h : n < 65536) :
    sext16 (BitVec.ofNat 16 n) = if n < 32768 then (n : Int) else n - 65536 := by
  simp only [sext16, BitVec.toInt_eq_toNat_cond, BitVec.toNat_ofNat]
  split <;> split <;> omega

/-- R45: the texts that are read as a numeric operand. -/
theorem readOperand_eq_some : readOperand x = some v ↔ NumText x v := by
  have hnat {cs : List Char} {n : Nat} : readNat 16 hexDigit cs = some n ↔ Numeral 16 cs n :=
    readNat_eq_some hexDigit_eq_some
  constructor
  · intro h
    unfold readOperand at h
    split at h
    · split at h
      · next n hn =>
        obtain ⟨hlt, ⟨⟩⟩ := Option.ite_none_right_eq_some.mp h
        simp only [sext16_ofNat hlt]
        split
        · exact .low (hnat.mp hn) (by omega)
        · exact .high (hnat.mp hn) (by omega) hlt
      · cases h
    · split at h
      · next hv =>
        obtain ⟨⟨hlo, hhi⟩, ⟨⟩⟩ := Option.ite_none_right_eq_some.mp h
        exact .dec (readInt_eq_some.mp hv) hlo hhi
      · cases h
  · intro h
    cases h with
    | dec h hlo hhi =>
      unfold readOperand
      split
      · exact absurd h not_decText_hex
      · simp [readInt_eq_some.mpr h, hlo, hhi]
    | low h hlt => simp [readOperand, hnat.mpr h, sext16_ofNat, hlt, hlt.trans]
    | high h hge hlt => simp [readOperand, hnat.mpr h, sext16_ofNat, hge, hlt]

/-- R45: the texts that are read as a boolean operand. -/
theorem readFlag_eq_some : readFlag x = some e ↔ FlagText x e := by
  constructor
  · intro h
    unfold readFlag at h
    split at h <;> cases h
    · exact .zero
    · exact .one
  · rintro (_ | _) <;> rfl

end Operands
end Sys2Proof.Machine
end

section
/-! PROOFS. A line's parts (spec R45, R111): what is left of a line of a mnemonic and operands after its comment, its
spaces and its commas are taken away. -/

namespace Sys2Proof.Machine

/-- A line's request depends on what is left when its comment and the spaces around it are taken away. -/
theorem assembleLine_congr {l l' : List Char} (h : trimSpaces (stripComment l) = trimSpaces (stripComment l')) :
    assembleLine l = assembleLine l' := by
  simp only [assembleLine, h]

theorem stripComment_append_comment {l cs : List Char} (hl : ∀ c ∈ l, c ≠ ';') (hcs : Comment cs) :
    stripComment (l ++ cs) = l := by
  obtain rfl | ⟨rest, rfl⟩ := hcs
  · rw [List.append_nil]
    exact (stripComment_of_clean hl []).2
  · exact (stripComment_of_clean hl rest).1

section Pieces
variable {x y l pre post : List Char} {ops : List (List Char)}

/-- A text that begins and ends with a piece has no spaces around it. -/
theorem trimSpaces_of_pieces (hx : Piece x) (hy : Piece y) (hbegin : l = x ++ post) (hend : l = pre ++ y) :
    trimSpaces l = l := by
  refine trimSpaces_of_ends (fun h => ?_) (fun h => ?_)
  · rw [hbegin, List.head?_append_of_ne_nil _ hx.1] at h
    exact (hx.2 _ (List.mem_of_mem_head? h)).1 rfl
  · rw [hend, List.getLast?_append_of_ne_nil _ hy.1] at h
    exact (hy.2 _ (List.mem_of_mem_getLast? h)).1 rfl

theorem Piece.trimSpaces_eq (hx : Piece x) : trimSpaces x = x :=
  trimSpaces_of_pieces hx hx (List.append_nil x).symm (List.nil_append x).symm

/-- The operands of a line as `lineOf` writes them: a comma and a space between. -/
def operandText : List (List Char) → List Char
  | [] => []
  | op :: ops => op ++ ops.flatMap fun x => ',' :: ' ' :: x

/-- R45: a line is its mnemonic, and a space and the operands if there are any. -/
theorem lineOf_eq (name : String) (ops : List (List Char)) :
    lineOf name ops = name.toList ++ if ops = [] then [] else ' ' :: operandText ops := by
  cases ops <;> simp [lineOf, operandText]

/-- The operands end with an operand. -/
theorem exists_operandText_eq_append (h : ops ≠ []) : ∃ pre, ∃ x ∈ ops, operandText ops = pre ++ x := by
  cases ops with
  | nil => exact absurd rfl h
  | cons op ops =>
    obtain rfl | ⟨init, y, rfl⟩ := List.eq_nil_or_concat' ops
    · exact ⟨[], op, by simp, by simp [operandText]⟩
    · exact ⟨op ++ init.flatMap (fun x => ',' :: ' ' :: x) ++ [',', ' '], y, by simp, by simp [operandText]⟩

theorem trimSpaces_operandText (h : ∀ x ∈ ops, Piece x) : trimSpaces (operandText ops) = operandText ops := by
  cases ops with
  | nil => rfl
  | cons op ops =>
    obtain ⟨pre, x, hx, hend⟩ := exists_operandText_eq_append (List.cons_ne_nil op ops)
    exact trimSpaces_of_pieces (h op List.mem_cons_self) (h x hx) rfl hend

theorem ne_semicolon_of_mem_operandText (h : ∀ x ∈ ops, Piece x) {c : Char} (hc : c ∈ operandText ops) :
    c ≠ ';' := by
  cases ops with
  | nil => cases hc
  | cons op ops =>
    obtain hc | hc := List.mem_append.mp hc
    · exact ((h op List.mem_cons_self).2 c hc).2.2
    · obtain ⟨x, hx, hc⟩ := List.mem_flatMap.mp hc
      obtain rfl | hc := List.mem_cons.mp hc
      · decide
      obtain rfl | hc := List.mem_cons.mp hc
      · decide
      · exact ((h x (List.mem_cons_of_mem _ hx)).2 c hc).2.2

/-- After an operand, read into `acc`, each comma and space begin the next operand. -/
theorem splitCommas_later_operands (acc : List Char) (h : ∀ x ∈ ops, Piece x) :
    splitCommas acc (ops.flatMap fun x => ',' :: ' ' :: x) = trimSpaces acc.reverse :: ops := by
  induction ops generalizing acc with
  | nil => rfl
  | cons x ops ih =>
    have hx := h x List.mem_cons_self
    have hspace : trimSpaces (' ' :: x) = x := by
      simpa [hx.trimSpaces_eq] using trimSpaces_pad 1 0 x
    have hlater := ih (x.reverse ++ [' ']) fun y hy => h y (List.mem_cons_of_mem _ hy)
    rw [List.reverse_append, List.reverse_reverse, List.reverse_singleton, List.singleton_append, hspace] at hlater
    simp [splitCommas, splitCommas_piece (fun c hc => (hx.2 c hc).2.1), hlater]

/-- What stands between the commas of the operands: the operands, or one empty piece if there are none. -/
def commaPieces : List (List Char) → List (List Char)
  | [] => [[]]
  | op :: ops => op :: ops

theorem splitCommas_operandText (h : ∀ x ∈ ops, Piece x) : splitCommas [] (operandText ops) = commaPieces ops := by
  cases ops with
  | nil => rfl
  | cons op ops =>
    have hop := h op List.mem_cons_self
    rw [operandText, splitCommas_piece (fun c hc => (hop.2 c hc).2.1),
      splitCommas_later_operands _ fun y hy => h y (List.mem_cons_of_mem _ hy)]
    simp [hop.trimSpaces_eq, commaPieces]

/-- Only an empty piece can stand for no operand. -/
theorem eq_of_commaPieces_eq {ys : List (List Char)} (h : commaPieces ops = ys) (hys : ys ≠ [[]]) : ops = ys := by
  cases ops with
  | nil => exact absurd h.symm hys
  | cons => exact h

theorem eq_nil_of_commaPieces_eq (h : commaPieces ops = [[]]) (hops : ops ≠ [[]]) : ops = [] := by
  cases ops with
  | nil => rfl
  | cons => exact absurd h hops

/-- Whatever stands between the commas is the pieces of some operands. -/
theorem exists_commaPieces_splitCommas (acc l : List Char) :
    ∃ ops, ops ≠ [[]] ∧ splitCommas acc l = commaPieces ops := by
  have hne : splitCommas acc l ≠ [] := by
    induction l generalizing acc with
    | nil => simp [splitCommas]
    | cons c cs ih =>
      rw [splitCommas]
      split
      · simp
      · exact ih _
  obtain h | h := eq_or_ne (splitCommas acc l) [[]]
  · exact ⟨[], by simp, h⟩
  · obtain ⟨op, ops, hcons⟩ := List.exists_cons_of_ne_nil hne
    exact ⟨op :: ops, hcons ▸ h, hcons⟩

end Pieces

section Line
variable {name : String} {ops : List (List Char)} {cs : List Char}

theorem trimSpaces_lineOf (hname : Piece name.toList) (h : ∀ x ∈ ops, Piece x) :
    trimSpaces (lineOf name ops) = lineOf name ops := by
  obtain rfl | hops := eq_or_ne ops []
  · exact hname.trimSpaces_eq
  · obtain ⟨pre, x, hx, hend⟩ := exists_operandText_eq_append hops
    refine trimSpaces_of_pieces (pre := name.toList ++ ' ' :: pre) hname (h x hx) (lineOf_eq name ops) ?_
    simp [lineOf_eq, hops, hend]

theorem ne_semicolon_of_mem_lineOf (hname : Piece name.toList) (h : ∀ x ∈ ops, Piece x) :
    ∀ c ∈ lineOf name ops, c ≠ ';' := by
  intro c hc
  rw [lineOf_eq] at hc
  obtain hc | hc := List.mem_append.mp hc
  · exact (hname.2 c hc).2.2
  · obtain ⟨-, hc⟩ := List.mem_ite_nil_left.mp hc
    obtain rfl | hc := List.mem_cons.mp hc
    · decide
    · exact ne_semicolon_of_mem_operandText h hc

/-- The mnemonic is what stands before the first space. -/
theorem takeWhile_lineOf (hname : Piece name.toList) : (lineOf name ops).takeWhile (· != ' ') = name.toList := by
  rw [lineOf_eq, List.takeWhile_append_of_pos fun c hc => by simpa using (hname.2 c hc).1]
  split <;> simp

/-- The operands are what stands after it. -/
theorem trimSpaces_dropWhile_lineOf (hname : Piece name.toList) (h : ∀ x ∈ ops, Piece x) :
    trimSpaces ((lineOf name ops).dropWhile (· != ' ')) = operandText ops := by
  rw [lineOf_eq, List.dropWhile_append_of_pos fun c hc => by simpa using (hname.2 c hc).1]
  split
  · next hops => subst hops; rfl
  · simpa [trimSpaces_operandText h] using trimSpaces_pad 1 0 (operandText ops)

/-- R45, R111: the request of a line of a mnemonic and operands, with or without a comment. -/
theorem assembleLine_lineOf (hname : Piece name.toList) (h : ∀ x ∈ ops, Piece x) (hcs : Comment cs) :
    assembleLine (lineOf name ops ++ cs) =
      if name = ".reset" then (readInt (operandText ops)).map fun n => some (.reset n)
      else (readInstr mnemonics name.toList (commaPieces ops)).map fun i => some (.command (encode i)) := by
  have hbody : trimSpaces (stripComment (lineOf name ops ++ cs)) = lineOf name ops := by
    rw [stripComment_append_comment (ne_semicolon_of_mem_lineOf hname h) hcs, trimSpaces_lineOf hname h]
  have hne : (lineOf name ops).isEmpty = false := by
    rw [lineOf_eq, List.isEmpty_eq_false_iff]
    exact List.append_ne_nil_of_left_ne_nil hname.1 _
  simp only [assembleLine, hbody, hne, takeWhile_lineOf hname, trimSpaces_dropWhile_lineOf hname h,
    splitCommas_operandText h, String.toList_inj, Bool.false_eq_true, if_false]

end Line

/-- R111: the one operand of a reset is its integer. -/
theorem decText_operandText_iff {ops : List (List Char)} {v : Int} :
    DecText (operandText ops) v ↔ ∃ x, ops = [x] ∧ DecText x v := by
  constructor
  · intro h
    match ops with
    | [] => exact absurd rfl h.piece.1
    | [x] => exact ⟨x, rfl, by simpa [operandText] using h⟩
    | x :: y :: ops => exact absurd rfl (h.piece.2 ',' (by simp [operandText])).2.1
  · rintro ⟨x, rfl, h⟩
    simpa [operandText] using h

/-- Spaces before and after a line, and a comment, change nothing. -/
theorem assembleLine_pad (m n : Nat) {line cs : List Char} (hline : ∀ c ∈ line, c ≠ ';') (hcs : Comment cs) :
    assembleLine (List.replicate m ' ' ++ line ++ List.replicate n ' ' ++ cs) = assembleLine line := by
  have hspaces {k : Nat} {c : Char} (hc : c ∈ List.replicate k ' ') : c ≠ ';' := by
    rw [List.eq_of_mem_replicate hc]
    decide
  have hclean : ∀ c ∈ List.replicate m ' ' ++ line ++ List.replicate n ' ', c ≠ ';' := by
    simp only [List.mem_append]
    rintro c ((hc | hc) | hc)
    exacts [hspaces hc, hline c hc, hspaces hc]
  apply assembleLine_congr
  rw [stripComment_append_comment hclean hcs, trimSpaces_pad, (stripComment_of_clean hline []).2]

/-- A program is its lines' requests, in order. -/
theorem assembleProgram_eq_some {lines : List (List Char)} {rs : List Request} :
    assembleProgram lines = some rs ↔
      ∃ parts : List (Option Request), lines.map assembleLine = parts.map some ∧ rs = parts.reduceOption := by
  have hcons (r : Option Request) (parts) : (r :: parts).reduceOption = r.toList ++ parts.reduceOption := by
    cases r <;> simp
  induction lines generalizing rs with
  | nil =>
    constructor
    · rintro ⟨⟩
      exact ⟨[], rfl, rfl⟩
    · rintro ⟨parts, hparts, rfl⟩
      rw [List.map_eq_nil_iff.mp hparts.symm]
      rfl
  | cons l ls ih =>
    simp only [assembleProgram_cons, Option.bind_eq_some_iff, Option.map_eq_some_iff, ih, List.map_cons]
    constructor
    · rintro ⟨r, hl, _, ⟨parts, hls, rfl⟩, rfl⟩
      exact ⟨r :: parts, by simp [hl, hls], (hcons r parts).symm⟩
    · rintro ⟨parts, hparts, rfl⟩
      obtain ⟨r, parts, rfl, hl, hls⟩ := List.map_eq_cons_iff.mp hparts.symm
      exact ⟨r, hl.symm, _, ⟨parts, hls.symm, rfl⟩, (hcons r parts).symm⟩

/-- Settles O47: a reset's operands are one decimal integer, an empty line is a padded one, and a program is read line
by line. -/
theorem resetLinesAndSpacing : Obligations.ResetLinesAndSpacing := by
  refine ⟨fun ops cs hops hcs r => ?_, fun n cs hcs => ?_, fun m n line cs => assembleLine_pad m n,
    fun _ _ => assembleProgram_eq_some⟩
  · rw [assembleLine_lineOf (by simp [Piece]) hops hcs, if_pos rfl, Option.map_eq_some_iff]
    simp only [readInt_eq_some, decText_operandText_iff]
    constructor
    · rintro ⟨v, ⟨x, hx, hv⟩, rfl⟩
      exact ⟨x, v, hx, hv, rfl⟩
    · rintro ⟨x, v, hx, hv, rfl⟩
      exact ⟨v, ⟨x, hx, hv⟩, rfl⟩
  · have hempty : assembleLine [] = some none := rfl
    simpa [hempty] using assembleLine_pad 0 n (line := []) (by simp) hcs

end Sys2Proof.Machine
end

section
/-! PROOFS. The mnemonics (spec R43, R45, R46): what is read from a line is exactly what it stands for. -/

namespace Sys2Proof.Machine

section Mnemonics
variable {name : String} {ops : List (List Char)} {i : Instr}

/-- A mnemonic is looked up in a table that lists no name twice. -/
theorem readInstr_eq_some {table : List (List Char × (List (List Char) → Option Instr))} {n : List Char}
    (hnodup : (table.map Prod.fst).Nodup) :
    readInstr table n ops = some i ↔ ∃ rd, (n, rd) ∈ table ∧ rd ops = some i := by
  induction table with
  | nil => simp [readInstr]
  | cons entry rest ih =>
    obtain ⟨m, rd⟩ := entry
    rw [List.map_cons, List.nodup_cons] at hnodup
    obtain ⟨hm, hnodup⟩ := hnodup
    unfold readInstr
    split
    · next heq =>
      subst heq
      have hother (rd') : (m, rd') ∉ rest := fun h => hm (List.mem_map.mpr ⟨_, h, rfl⟩)
      simp [hother]
    · next hne =>
      rw [ih hnodup]
      simp [Ne.symm hne]

/-- R43, R46: no mnemonic is listed twice. -/
theorem nodup_mnemonics : (mnemonics.map Prod.fst).Nodup := by decide

theorem NumText.ne_nil {x : List Char} {v : Int} (h : NumText x v) : x ≠ [] := by
  cases h with
  | dec h => exact h.piece.1
  | low | high => simp

theorem NumText.fits {x : List Char} {v : Int} (h : NumText x v) : OperandFits v := by
  cases h with
  | dec _ hlo hhi => exact ⟨hlo, hhi⟩
  | low _ hlt => exact ⟨by omega, by omega⟩
  | high _ hge hlt => exact ⟨by omega, by omega⟩

theorem FlagText.ne_nil {x : List Char} {e : Bool} (h : FlagText x e) : x ≠ [] := by
  cases h <;> simp

theorem Denotes.of_twoNum {k : Int → Int → Instr} (h : twoNum k (commaPieces ops) = some i)
    (hk : ∀ {x y l r}, NumText x l → NumText y r → Denotes name [x, y] (k l r)) : Denotes name ops i := by
  unfold twoNum at h
  split at h
  · next hops =>
    split at h <;> cases h
    next hl hr =>
      obtain rfl := eq_of_commaPieces_eq hops (by simp)
      exact hk (readOperand_eq_some.mp hl) (readOperand_eq_some.mp hr)
  · cases h

theorem Denotes.of_oneNum {k : Int → Instr} (h : oneNum k (commaPieces ops) = some i)
    (hk : ∀ {x v}, NumText x v → Denotes name [x] (k v)) : Denotes name ops i := by
  unfold oneNum at h
  split at h
  · next hops =>
    obtain ⟨v, hv, rfl⟩ := Option.map_eq_some_iff.mp h
    have hx := readOperand_eq_some.mp hv
    obtain rfl := eq_of_commaPieces_eq hops (by simpa using hx.ne_nil)
    exact hk hx
  · cases h

theorem Denotes.of_twoFlags {k : Bool → Bool → Instr} (h : twoFlags k (commaPieces ops) = some i)
    (hk : ∀ {x y d e}, FlagText x d → FlagText y e → Denotes name [x, y] (k d e)) : Denotes name ops i := by
  unfold twoFlags at h
  split at h
  · next hops =>
    split at h <;> cases h
    next hd he =>
      obtain rfl := eq_of_commaPieces_eq hops (by simp)
      exact hk (readFlag_eq_some.mp hd) (readFlag_eq_some.mp he)
  · cases h

theorem Denotes.of_oneFlag {k : Bool → Instr} (h : oneFlag k (commaPieces ops) = some i)
    (hk : ∀ {x e}, FlagText x e → Denotes name [x] (k e)) : Denotes name ops i := by
  unfold oneFlag at h
  split at h
  · next hops =>
    obtain ⟨e, he, rfl⟩ := Option.map_eq_some_iff.mp h
    have hx := readFlag_eq_some.mp he
    obtain rfl := eq_of_commaPieces_eq hops (by simpa using hx.ne_nil)
    exact hk hx
  · cases h

theorem Denotes.of_noOperand {j : Instr} (hops : ops ≠ [[]]) (h : noOperand j (commaPieces ops) = some i)
    (hj : Denotes name [] j) : Denotes name ops i := by
  unfold noOperand at h
  split at h
  · next hempty =>
    obtain rfl := eq_nil_of_commaPieces_eq hempty hops
    cases h
    exact hj
  · cases h

/-- What a mnemonic of the table reads from the operands is what the line stands for. -/
theorem denotes_of_mem_mnemonics {rd : List (List Char) → Option Instr} (hops : ops ≠ [[]])
    (hrd : (name.toList, rd) ∈ mnemonics) (h : rd (commaPieces ops) = some i) : Denotes name ops i := by
  simp only [mnemonics, List.cons_append, List.nil_append, List.mem_cons, List.not_mem_nil, or_false,
    Prod.mk.injEq, String.toList_inj] at hrd
  rcases hrd with ⟨rfl, rfl⟩ | ⟨rfl, rfl⟩ | ⟨rfl, rfl⟩ | ⟨rfl, rfl⟩ | ⟨rfl, rfl⟩ | ⟨rfl, rfl⟩ | ⟨rfl, rfl⟩ |
    ⟨rfl, rfl⟩ | ⟨rfl, rfl⟩ | ⟨rfl, rfl⟩ | ⟨rfl, rfl⟩ | ⟨rfl, rfl⟩ | ⟨rfl, rfl⟩ | ⟨rfl, rfl⟩ | ⟨rfl, rfl⟩ |
    ⟨rfl, rfl⟩ | ⟨rfl, rfl⟩ | ⟨rfl, rfl⟩ | ⟨rfl, rfl⟩ | ⟨rfl, rfl⟩
  exacts [.of_twoNum h .setVol, .of_oneNum h .setVolL, .of_oneNum h .setVolR,
    .of_twoNum h .setAtt, .of_oneNum h .setAttL, .of_oneNum h .setAttR,
    .of_twoNum h .setGain, .of_oneNum h .setGainL, .of_oneNum h .setGainR,
    .of_twoFlags h .mute, .of_oneFlag h .setZc, .of_oneFlag h .setAttLink, .of_oneFlag h .setGainLink,
    .of_oneNum h .setVolB, .of_oneNum h .setAttB, .of_oneNum h .setGainB,
    .of_noOperand hops h .muteL, .of_noOperand hops h .muteR, .of_noOperand hops h .muteAll,
    .of_noOperand hops h .nop]

section Read
variable {x y : List Char} {l r v : Int} {d e : Bool}

theorem twoNum_of_numText (k : Int → Int → Instr) (hx : NumText x l) (hy : NumText y r) :
    twoNum k [x, y] = some (k l r) := by
  simp [twoNum, readOperand_eq_some.mpr hx, readOperand_eq_some.mpr hy]

theorem oneNum_of_numText (k : Int → Instr) (hx : NumText x v) : oneNum k [x] = some (k v) := by
  simp [oneNum, readOperand_eq_some.mpr hx]

theorem twoFlags_of_flagText (k : Bool → Bool → Instr) (hx : FlagText x d) (hy : FlagText y e) :
    twoFlags k [x, y] = some (k d e) := by
  simp [twoFlags, readFlag_eq_some.mpr hx, readFlag_eq_some.mpr hy]

theorem oneFlag_of_flagText (k : Bool → Instr) (hx : FlagText x e) : oneFlag k [x] = some (k e) := by
  simp [oneFlag, readFlag_eq_some.mpr hx]

end Read

/-- What a line stands for is read from the operands by its mnemonic in the table. -/
theorem Denotes.exists_mem_mnemonics (h : Denotes name ops i) :
    ∃ rd, (name.toList, rd) ∈ mnemonics ∧ rd (commaPieces ops) = some i := by
  cases h with
  | setVol hx hy | setAtt hx hy | setGain hx hy =>
    exact ⟨twoNum _, by simp [mnemonics], twoNum_of_numText _ hx hy⟩
  | setVolL hx | setVolR hx | setAttL hx | setAttR hx | setGainL hx | setGainR hx =>
    exact ⟨oneNum _, by simp [mnemonics], oneNum_of_numText _ hx⟩
  | mute hx hy => exact ⟨twoFlags _, by simp [mnemonics], twoFlags_of_flagText _ hx hy⟩
  | setZc hx | setAttLink hx | setGainLink hx =>
    exact ⟨oneFlag _, by simp [mnemonics], oneFlag_of_flagText _ hx⟩
  | setVolB hx => exact ⟨_, by simp [mnemonics], oneNum_of_numText (fun v => expandPseudo (.setVolB v)) hx⟩
  | setAttB hx => exact ⟨_, by simp [mnemonics], oneNum_of_numText (fun v => expandPseudo (.setAttB v)) hx⟩
  | setGainB hx => exact ⟨_, by simp [mnemonics], oneNum_of_numText (fun g => expandPseudo (.setGainB g)) hx⟩
  | muteL | muteR | muteAll | nop => exact ⟨noOperand _, by simp [mnemonics, expandPseudo], rfl⟩

/-- R43, R46: what is read from a mnemonic and operands is exactly what they stand for. -/
theorem readInstr_mnemonics_eq_some (hops : ops ≠ [[]]) :
    readInstr mnemonics name.toList (commaPieces ops) = some i ↔ Denotes name ops i := by
  rw [readInstr_eq_some nodup_mnemonics]
  exact ⟨fun ⟨_, hrd, h⟩ => denotes_of_mem_mnemonics hops hrd h, Denotes.exists_mem_mnemonics⟩

/-- R42, R45: the command of a line is one that a word encodes. -/
theorem Denotes.wellFormed (h : Denotes name ops i) : i.WellFormed := by
  cases h with
  | setVol hx hy | setAtt hx hy | setGain hx hy => simpa [Instr.WellFormed, Instr.operands] using ⟨hx.fits, hy.fits⟩
  | setVolL hx | setVolR hx | setAttL hx | setAttR hx | setGainL hx | setGainR hx
  | setVolB hx | setAttB hx | setGainB hx => simpa [Instr.WellFormed, Instr.operands] using hx.fits
  | mute | setZc | setAttLink | setGainLink | muteL | muteR | muteAll | nop =>
    simp [Instr.WellFormed, Instr.operands]

/-- A line that assembles to a command is a mnemonic with operands, whatever its spacing. -/
theorem exists_denotes_of_assembleLine {line : List Char} {w : CmdWord}
    (h : assembleLine line = some (some (.command w))) : ∃ name ops i, Denotes name ops i ∧ w = encode i := by
  unfold assembleLine at h
  extract_lets body mnemonic rest at h
  split_ifs at h
  · cases h
  · obtain ⟨v, -, hv⟩ := Option.map_eq_some_iff.mp h
    cases hv
  · obtain ⟨i, hi, hw⟩ := Option.map_eq_some_iff.mp h
    obtain ⟨ops, hops, hpieces⟩ := exists_commaPieces_splitCommas [] rest
    rw [hpieces, ← String.toList_ofList (l := mnemonic), readInstr_mnemonics_eq_some hops] at hi
    cases hw
    exact ⟨_, ops, i, hi, rfl⟩

end Mnemonics

/-- Settles O24: the parts of the line are the mnemonic and the operands, and what is read from them is what they
stand for. -/
theorem assembledLinesAreCommands : Obligations.AssembledLinesAreCommands := by
  refine ⟨fun name ops cs hname hreset hops hcs r => ?_, fun v hlo hhi => ?_, fun line w h => ?_⟩
  · have hempty : ops ≠ [[]] := by
      rintro rfl
      exact (hops [] (by simp)).1 rfl
    rw [assembleLine_lineOf hname hops hcs, if_neg hreset, Option.map_eq_some_iff]
    simp only [readInstr_mnemonics_eq_some hempty, eq_comm]
  · obtain ⟨x, hx⟩ := exists_decText v
    exact ⟨x, hx.piece, hx, .dec hx hlo hhi⟩
  · obtain ⟨name, ops, i, hi, rfl⟩ := exists_denotes_of_assembleLine h
    exact ⟨i, hi.wellFormed, rfl, decode_encode hi.wellFormed⟩

end Sys2Proof.Machine
end

section
/-! PROOFS. The numeric encoder on every integer (spec R11, R53 to R59): where each function is exact, where it
saturates, and that an encoded volume denotes the volume it came from. -/

namespace Sys2Proof.Machine

section Clamp

variable {v w lo hi : Int}

theorem clamp_of_mem (hlo : lo ≤ v) (hhi : v ≤ hi) : clamp v lo hi = v := by
  rw [clamp, max_eq_left hlo, min_eq_left hhi]

theorem clamp_of_le (h : lo ≤ hi) (hv : v ≤ lo) : clamp v lo hi = lo := by
  rw [clamp, max_eq_right hv, min_eq_left h]

theorem clamp_of_ge (h : lo ≤ hi) (hv : hi ≤ v) : clamp v lo hi = hi := by
  rw [clamp, max_eq_left (h.trans hv), min_eq_right hv]

theorem clamp_le : clamp v lo hi ≤ hi := min_le_right ..

theorem clamp_mono (h : v ≤ w) : clamp v lo hi ≤ clamp w lo hi := min_le_min_right _ (max_le_max_right _ h)

end Clamp

section Attenuation

variable {v w : Int}

/-- R53: exact on the attenuator's range. -/
theorem encodeAttenuation_toNat_of_mem (hlo : -223 ≤ v) (hhi : v ≤ 0) :
    ((encodeAttenuation v).toNat : Int) = 0x10 - v := by
  rw [encodeAttenuation_toNat, clamp_of_mem hlo hhi]
  omega

theorem encodeAttenuation_of_le (h : v ≤ -223) : encodeAttenuation v = 0xEF#8 := by
  rw [encodeAttenuation, attMin, clamp_of_le (by decide) h]
  rfl

theorem encodeAttenuation_of_nonneg (h : 0 ≤ v) : encodeAttenuation v = 0x10#8 := by
  rw [encodeAttenuation, clamp_of_ge (by decide) h]
  rfl

/-- R58: a louder level never has a larger attenuation byte. -/
theorem encodeAttenuation_antitone (h : v ≤ w) : (encodeAttenuation w).toNat ≤ (encodeAttenuation v).toNat := by
  have hle : clamp v (-223) 0 ≤ clamp w (-223) 0 := clamp_mono h
  have hw : clamp w (-223) 0 ≤ 0 := clamp_le
  rw [encodeAttenuation_toNat, encodeAttenuation_toNat]
  omega

/-- R57. -/
theorem encodeAttenuation_ne_muteCode (v : Int) : encodeAttenuation v ≠ muteCode := by
  intro h
  obtain ⟨hlo, -⟩ := encodeAttenuation_attCode v
  rw [h] at hlo
  exact absurd hlo (by decide)

/-- R53, with the number of half-dB steps below 0 dB as a natural number. -/
theorem encodeAttenuation_neg {k : Nat} (hk : k ≤ 223) : encodeAttenuation (-k) = BitVec.ofNat 8 (0x10 + k) := by
  rw [encodeAttenuation, attMin, clamp_of_mem (by omega) (by omega), Int.natAbs_neg]
  rfl

/-- R47: one step of the attenuator is half a dB, two quarters. -/
theorem attLevel_encodeAttenuation (hlo : -223 ≤ v) (hhi : v ≤ 0) : attLevel (encodeAttenuation v) = 2 * v := by
  rw [attLevel, encodeAttenuation_toNat_of_mem hlo hhi]
  omega

end Attenuation

section Gain

variable {v w : Int}

/-- R54: the identity on the coarse range. -/
theorem encodeGain_toNat_of_mem (hlo : 0 ≤ v) (hhi : v ≤ 63) : ((encodeGain v).toNat : Int) = v := by
  rw [encodeGain_toNat, clamp_of_mem hlo hhi, Int.toNat_of_nonneg hlo]

theorem encodeGain_of_nonpos (h : v ≤ 0) : encodeGain v = 0x00#8 := by
  rw [encodeGain, clamp_of_le (by decide) h]
  rfl

theorem encodeGain_of_ge (h : 63 ≤ v) : encodeGain v = 0x3F#8 := by
  rw [encodeGain, gainMax, clamp_of_ge (by decide) h]
  rfl

/-- R58. -/
theorem encodeGain_mono (h : v ≤ w) : (encodeGain v).toNat ≤ (encodeGain w).toNat := by
  rw [encodeGain_toNat, encodeGain_toNat]
  exact Int.toNat_le_toNat (clamp_mono h)

end Gain

section Volume

variable {v w : Int}

/-- R56: a volume reaches the encoder through its clamped value alone. -/
theorem encodeVolume_eq_of_clamp_eq (h : clamp v (-446) 0 = clamp w (-446) 0) : encodeVolume v = encodeVolume w := by
  rw [encodeVolume, encodeVolume, volMin, h]

/-- R59: an even volume is attenuation only. -/
theorem encodeVolume_even {k : Nat} (hk : k ≤ 223) :
    encodeVolume (-2 * k) = (encodeAttenuation (-k), 0x00#8) := by
  have hclamp : clamp (-2 * k) volMin 0 = -2 * k := clamp_of_mem (by rw [volMin]; omega) (by omega)
  have hdiv : tdiv (-2 * k - 1) 2 = -k := by rw [tdiv_two_of_nonpos (by omega)]; omega
  have hodd : odd (-2 * k) = false := by simp [odd]
  simp only [encodeVolume, hclamp, hdiv, hodd, Bool.false_eq_true, if_false, encodeGain_of_nonpos le_rfl]

/-- R59: an odd volume takes one more half-dB step of attenuation, and the fine-gain bit. -/
theorem encodeVolume_odd {k : Nat} (hk : k ≤ 222) :
    encodeVolume (-(2 * k + 1)) = (encodeAttenuation (-(k + 1 : Nat)), encodeFineGain) := by
  have hclamp : clamp (-(2 * k + 1)) volMin 0 = -(2 * k + 1) := clamp_of_mem (by rw [volMin]; omega) (by omega)
  have hdiv : tdiv (-(2 * k + 1) - 1) 2 = -(k + 1 : Nat) := by rw [tdiv_two_of_nonpos (by omega)]; omega
  have hodd : odd (-(2 * k + 1)) = true := by rw [odd, bne_iff_ne]; omega
  simp only [encodeVolume, hclamp, hdiv, hodd, if_true]

/-- A volume of the range is one of the two forms of R59. -/
theorem exists_even_or_odd_volume (hlo : -446 ≤ v) (hhi : v ≤ 0) :
    (∃ k : Nat, k ≤ 223 ∧ v = -2 * k) ∨ ∃ k : Nat, k ≤ 222 ∧ v = -(2 * k + 1) := by
  rcases Int.even_or_odd' (-v) with ⟨k, hk | hk⟩
  · exact .inl ⟨k.toNat, by omega, by omega⟩
  · exact .inr ⟨k.toNat, by omega, by omega⟩

/-- R59: the attenuation and gain levels of an encoded volume add up to the volume. -/
theorem level_encodeVolume (hlo : -446 ≤ v) (hhi : v ≤ 0) :
    attLevel (encodeVolume v).1 + gainLevel (encodeVolume v).2 = v := by
  obtain ⟨k, hk, rfl⟩ | ⟨k, hk, rfl⟩ := exists_even_or_odd_volume hlo hhi
  · have hgain : gainLevel 0x00#8 = 0 := rfl
    rw [encodeVolume_even hk, attLevel_encodeAttenuation (by omega) (by omega), hgain]
    omega
  · have hgain : gainLevel encodeFineGain = 1 := rfl
    rw [encodeVolume_odd hk, attLevel_encodeAttenuation (by omega) (by omega), hgain]
    omega

end Volume

/-- Settles O15: exact inside the range, constant on both sides, and antitone because the clamp is monotone and
never positive. -/
theorem attenuationEncoderLaws : Obligations.AttenuationEncoderLaws :=
  ⟨fun _ => encodeAttenuation_toNat_of_mem, fun _ h => encodeAttenuation_of_le h.le,
    fun _ h => encodeAttenuation_of_nonneg h.le, fun _ _ => encodeAttenuation_antitone, encodeAttenuation_ne_muteCode⟩

/-- Settles O16: the identity inside the range, constant on both sides, and monotone because the clamp is. -/
theorem gainEncoderLaws : Obligations.GainEncoderLaws :=
  ⟨fun _ => encodeGain_toNat_of_mem, fun _ h => encodeGain_of_nonpos h.le, fun _ h => encodeGain_of_ge h.le,
    fun _ _ => encodeGain_mono⟩

/-- Settles O17: the two forms inside the range, and the clamp outside it. -/
theorem volumeEncoderClosedForm : Obligations.VolumeEncoderClosedForm := by
  refine ⟨fun k hk => ?_, fun k hk => ?_, fun v hv => ?_, fun v hv => ?_⟩
  · rw [encodeVolume_even hk, encodeAttenuation_neg hk]
  · have hbase : 0x11 + k = 0x10 + (k + 1) := by omega
    rw [encodeVolume_odd hk, encodeAttenuation_neg (by omega), hbase]
    rfl
  · exact encodeVolume_eq_of_clamp_eq (clamp_of_ge (by decide) hv.le)
  · exact encodeVolume_eq_of_clamp_eq (clamp_of_le (by decide) hv.le)

/-- Settles O18: the level of the encoded pair is a left inverse of the encoder on its range. -/
theorem volumeLevelIsExact : Obligations.VolumeLevelIsExact := by
  refine ⟨fun v => level_encodeVolume, fun v w hv hv' hw hw' h => ?_⟩
  calc v = attLevel (encodeVolume v).1 + gainLevel (encodeVolume v).2 := (level_encodeVolume hv hv').symm
    _ = attLevel (encodeVolume w).1 + gainLevel (encodeVolume w).2 := by rw [h]
    _ = w := level_encodeVolume hw hw'

end Sys2Proof.Machine
end

section
/-! PROOFS. The state setters (spec R42 to R44, R61 to R67): which words are a one-flag command, and what a ready
core does with the others. -/

namespace Sys2Proof

/-- R42: the flag of a boolean field that holds 0 or 1. -/
theorem flagOf_eq_toNat_beq_one {f : Half} (h : f.toNat < 2) : flagOf f = (f.toNat == 1) := by
  rw [← flagField_flagOf ((flagClean_iff f).mpr h)]
  cases flagOf f <;> rfl

/-- R44: the two checks of the one-flag form. -/
theorem exists_decodeFlag_eq_error {k : Bool → Instr} {a b : Half} (h : b ≠ 0#16 ∨ 2 ≤ a.toNat) :
    ∃ r, decodeFlag k a b = .error r := by
  cases hd : decodeFlag k a b with
  | error r => exact ⟨r, rfl⟩
  | ok i =>
    obtain ⟨hb, ha, -⟩ := decodeFlag_ok.mp hd
    have hlt := (flagClean_iff a).mp ha
    exact absurd hb (h.resolve_right (by omega))

end Sys2Proof

namespace Sys2Proof.Machine

section Forms
variable {s : State} {c : CoreInst}

/-- R99: a ready core refuses a reserved word. -/
theorem State.Ready.command_error (h : s.Ready c) {w : CmdWord} {r : Reserved} (hd : decode w = .error r) :
    s.command w = .refused .reservedEncoding := by
  simp only [State.command, hd]
  exact State.gate_ready h.atPort h.cmdReady

/-- R42 to R44, R99: an opcode that decodes by the one-flag form has that form on a ready core. -/
theorem State.Ready.formFlag (h : s.Ready c) {op : BitVec 8} {k : Bool → Instr}
    (hop : ∀ a b, decodeFields op a b = decodeFlag k a b) : s.FormFlag op k := by
  rintro w rfl
  have hdecode : decode w = decodeFlag k (aField w) (bField w) := hop ..
  refine ⟨fun hb ha => State.command_ok ?_, fun hbad => ?_⟩
  · rw [hdecode, decodeFlag_ok, flagOf_eq_toNat_beq_one ha]
    exact ⟨hb, (flagClean_iff _).mpr ha, rfl⟩
  · obtain ⟨r, hr⟩ := exists_decodeFlag_eq_error hbad
    exact h.command_error (hdecode.trans hr)

end Forms

/-- Settles O5: the three opcodes decode by the one-flag form, and a ready core takes a setter by writing its field
and emitting the state frame, whose byte `emits` packs from the booleans after that write. -/
theorem stateSettersWriteThenPack : Obligations.StateSettersWriteThenPack := by
  intro s c h
  exact ⟨h.formFlag fun _ _ => rfl, h.formFlag fun _ _ => rfl, h.formFlag fun _ _ => rfl,
    fun _ hatt => if_pos hatt, fun _ hgain => if_pos hgain,
    fun e => ⟨exec_of_ready (.setZc e) h, exec_of_ready (.setAttLink e) h, exec_of_ready (.setGainLink e) h⟩⟩

end Sys2Proof.Machine
end

section
/-! PROOFS. The channel commands (spec R67, R68, R70 to R80): which words are a two-operand, a one-operand and a
two-flag command, and the number, the order and the suppression of the frames a command emits. -/

namespace Sys2Proof

/-- R44: the two checks of the two-flag form. -/
theorem exists_decodeFlags_eq_error {k : Bool → Bool → Instr} {a b : Half} (h : 2 ≤ a.toNat ∨ 2 ≤ b.toNat) :
    ∃ r, decodeFlags k a b = .error r := by
  cases hd : decodeFlags k a b with
  | error r => exact ⟨r, rfl⟩
  | ok i =>
    obtain ⟨ha, hb, -⟩ := decodeFlags_ok.mp hd
    rw [flagClean_iff] at ha hb
    omega

end Sys2Proof

namespace Sys2Proof.Machine

section Forms
variable {s : State} {c : CoreInst} {op : BitVec 8}

/-- R42, R43: an opcode that decodes by the two-operand form has that form, on any core. -/
theorem State.formTwo (s : State) {k : Int → Int → Instr} (hop : ∀ a b, decodeFields op a b = decodeTwo k a b) :
    s.FormTwo op k := by
  rintro w rfl
  exact State.command_ok (hop ..)

/-- R42 to R44, R99: an opcode that decodes by the one-operand form has that form on a ready core. -/
theorem State.Ready.formOne (h : s.Ready c) {k : Int → Instr} (hop : ∀ a b, decodeFields op a b = decodeOne k a b) :
    s.FormOne op k := by
  rintro w rfl
  have hdecode : decode w = decodeOne k (aField w) (bField w) := hop ..
  exact ⟨fun hb => State.command_ok (hdecode.trans (if_pos hb)),
    fun hb => h.command_error (hdecode.trans (if_neg hb))⟩

/-- R42 to R44, R99: an opcode that decodes by the two-flag form has that form on a ready core. -/
theorem State.Ready.formFlags (h : s.Ready c) {k : Bool → Bool → Instr}
    (hop : ∀ a b, decodeFields op a b = decodeFlags k a b) : s.FormFlags op k := by
  rintro w rfl
  have hdecode : decode w = decodeFlags k (aField w) (bField w) := hop ..
  refine ⟨fun ha hb => State.command_ok ?_, fun hbad => ?_⟩
  · rw [hdecode, decodeFlags_ok, flagOf_eq_toNat_beq_one ha, flagOf_eq_toNat_beq_one hb]
    exact ⟨(flagClean_iff _).mpr ha, (flagClean_iff _).mpr hb, rfl⟩
  · obtain ⟨r, hr⟩ := exists_decodeFlags_eq_error hbad
    exact h.command_error (hdecode.trans hr)

end Forms

/-- Settles O1: the opcodes decode by their forms, and a ready core takes a volume command by emitting its frames. -/
theorem volumeCommandsEmitTheirFrames : Obligations.VolumeCommandsEmitTheirFrames := by
  intro s c h
  exact ⟨s.formTwo fun _ _ => rfl, h.formOne fun _ _ => rfl, h.formOne fun _ _ => rfl,
    fun l r => exec_of_ready (.setVol l r) h, fun v => exec_of_ready (.setVolL v) h,
    fun v => exec_of_ready (.setVolR v) h⟩

/-- Settles O2: as O1, of the attenuation commands. -/
theorem attenuationCommandsEmitTheirFrames : Obligations.AttenuationCommandsEmitTheirFrames := by
  intro s c h
  exact ⟨s.formTwo fun _ _ => rfl, h.formOne fun _ _ => rfl, h.formOne fun _ _ => rfl,
    fun l r => exec_of_ready (.setAtt l r) h, fun v => exec_of_ready (.setAttL v) h,
    fun v => exec_of_ready (.setAttR v) h⟩

/-- Settles O3: as O1, of the gain commands. -/
theorem gainCommandsEmitTheirFrames : Obligations.GainCommandsEmitTheirFrames := by
  intro s c h
  exact ⟨s.formTwo fun _ _ => rfl, h.formOne fun _ _ => rfl, h.formOne fun _ _ => rfl,
    fun l r => exec_of_ready (.setGain l r) h, fun g => exec_of_ready (.setGainL g) h,
    fun g => exec_of_ready (.setGainR g) h⟩

/-- Settles O4: the opcode decodes by the two-flag form, and MUTE's frames carry the mute code 0x00. -/
theorem muteSendsTheMuteCode : Obligations.MuteSendsTheMuteCode := by
  intro s c h
  exact ⟨h.formFlags fun _ _ => rfl, fun ml mr => exec_of_ready (.mute ml mr) h⟩

/-- Settles O6: a ready core accepts the command, and its pending frames are those the command emits. -/
theorem framesPerCommandTable : Obligations.FramesPerCommandTable := by
  intro i s c h
  exact ⟨_, _, exec_of_ready i h, State.accepted_getElem?_port h.atPort _, length_emits i c, length_emits_le i c⟩

/-- R49: the select code of a frame is that of the register it was built for. -/
@[simp] theorem Frame.select_mkFrame (sel : RegSel) (d : Byte) (chip : ChipAddr) :
    (mkFrame sel d chip).select = sel.code.toNat := by
  have hchip := chip.isLt
  rw [Frame.select, mkFrame, addressByte_toNat]
  omega

section Suppression
variable {i : Instr} {c d : CoreInst}

/-- R67: the links of `c` do not suppress the frame `f`. -/
def CoreInst.passes (c : CoreInst) (f : Frame) : Bool :=
  !((c.attLink && f.select == 2) || (c.gainLink && f.select == 3))

/-- R67: each link bit suppresses the writes to its own right register, and no other write. -/
theorem CoreInst.passes_mkFrame (sel : RegSel) (b : Byte) (chip : ChipAddr) :
    c.passes (mkFrame sel b chip) =
      match sel with
      | .attR => !c.attLink
      | .gainR => !c.gainLink
      | _ => true := by
  cases sel <;> simp [CoreInst.passes, RegSel.code]

/-- R67: a right-channel write is the one made with its link clear, if the links pass it. -/
theorem filter_passes_unlessLinked {link : Bool} {f : Frame} (h : c.passes f = !link) :
    (unlessLinked false f).filter c.passes = unlessLinked link f := by
  cases link <;> simp [unlessLinked, h]

/-- R67: what a channel command emits is what it emits on an unlinked core, less the suppressed writes. -/
theorem emits_eq_filter (hi : ¬ IsSetter i) (hchip : d.chipAddr = c.chipAddr) (hatt : d.attLink = false)
    (hgain : d.gainLink = false) : emits i c = (emits i d).filter c.passes := by
  cases i with
  | setZc | setAttLink | setGainLink => exact absurd trivial hi
  | mute ml mr =>
    cases ml <;> cases mr <;>
      simp [emits, hchip, hatt, filter_passes_unlessLinked, CoreInst.passes_mkFrame]
  | _ => simp [emits, hchip, hatt, hgain, filter_passes_unlessLinked, CoreInst.passes_mkFrame]

end Suppression

/-- Settles O8: both cores are ready, and each pends what the command emits on it. -/
theorem linkSuppressionIsPerRegister : Obligations.LinkSuppressionIsPerRegister := by
  intro i s u c d hi hs hu hchip hatt hgain
  exact ⟨_, _, _, _, exec_of_ready i hs, exec_of_ready i hu, State.accepted_getElem?_port hs.atPort _,
    State.accepted_getElem?_port hu.atPort _, emits_eq_filter hi hchip hatt hgain⟩

section Order
variable {c : CoreInst}

/-- R68: with both links clear a command writes its registers in the order of their select codes. -/
theorem pairwise_select_emits_of_unlinked (i : Instr) (hatt : c.attLink = false) (hgain : c.gainLink = false) :
    (emits i c).Pairwise fun f g => f.select < g.select := by
  cases i with
  | mute ml mr => cases ml <;> cases mr <;> simp [emits, unlessLinked, hatt, RegSel.code]
  | _ => simp [emits, unlessLinked, hatt, hgain, RegSel.code]

/-- R67, R68: a setter emits one frame, and suppression leaves the order of the other frames as it is. -/
theorem pairwise_select_emits (i : Instr) (c : CoreInst) :
    (emits i c).Pairwise fun f g => f.select < g.select := by
  by_cases hi : IsSetter i
  · rw [emits_of_isSetter hi]
    exact List.pairwise_singleton ..
  · rw [emits_eq_filter (c := c) (d := { c with attLink := false, gainLink := false }) hi rfl rfl rfl]
    exact (pairwise_select_emits_of_unlinked i rfl rfl).filter _

end Order

/-- Settles O9: a ready core accepts the command, and its pending frames are those the command emits. -/
theorem framesAscendBySelectCode : Obligations.FramesAscendBySelectCode := by
  intro i s c h
  exact ⟨_, _, exec_of_ready i h, State.accepted_getElem?_port h.atPort _, pairwise_select_emits i c⟩

end Sys2Proof.Machine
end

section
/-! PROOFS. The turns of a framer and of the transport, one at a time (spec R82 to R91): the equation of each turn,
the turns with no transition enabled, and the six turns that send a frame. -/

namespace Sys2Proof.Machine

section Turn
variable {s t : State} {k : Nat} {c : CoreInst} {rest : List Agent}

/-- Log 2: a framer's turn is its transition, or is used up where none is enabled. -/
theorem step_framer (ht : s.turns = .framer k :: rest) (hc : s.insts[k]? = some c) :
    step s = .next ((State.framerStep { s with turns := rest } k c).getD { s with turns := rest }) := by
  simp [step, ht, State.fire, State.turnOf, hc]

/-- Log 2: the transport's turn is its transition, or is used up where none is enabled. -/
theorem step_transport (ht : s.turns = .transport k :: rest) (hc : s.insts[k]? = some c) :
    step s = .next ((State.transportStep { s with turns := rest } k c).getD { s with turns := rest }) := by
  simp [step, ht, State.fire, State.turnOf, hc]

/-- Log 2: a turn with no transition enabled is used up, and any other is a move. -/
theorem step_turn (ht : s.turns = .framer k :: rest ∨ s.turns = .transport k :: rest) (hc : s.insts[k]? = some c)
    (h : step s = .next t) : t = { s with turns := rest } ∨ State.Moves { s with turns := rest } k c t := by
  obtain ht | ht := ht
  · obtain rfl := Host.Outcome.next.inj ((step_framer ht hc).symm.trans h)
    cases hm : State.framerStep { s with turns := rest } k c with
    | none => exact .inl rfl
    | some u => exact .inr (.inl hm)
  · obtain rfl := Host.Outcome.next.inj ((step_transport ht hc).symm.trans h)
    cases hm : State.transportStep { s with turns := rest } k c with
    | none => exact .inl rfl
    | some u => exact .inr (.inr hm)

/-- R83: an idle framer with nothing to send, or whose bus is owned, has no transition. -/
theorem State.framerStep_of_idle_disabled (hidle : c.phase = .idle) (h : c.pending = [] ∨ s.owner ≠ none) :
    s.framerStep k c = none := by
  have hdisabled : ¬(c.phase = .idle ∧ c.pending ≠ [] ∧ s.owner = none) := fun ⟨_, hne, ho⟩ => h.elim hne (· ho)
  simp only [State.framerStep, hidle]
  exact if_neg hdisabled

/-- R90: in `selected` and `sentData` the framer waits for the transport. -/
theorem State.framerStep_of_byteOffered (h : c.phase = .selected ∨ c.phase = .sentData) :
    s.framerStep k c = none := by
  obtain h | h := h <;> simp only [State.framerStep, h]

/-- R85, R86: outside `selected` and `sentData` the transport has no transition. -/
theorem State.transportStep_of_noByteOffered (h : c.phase ≠ .selected) (h' : c.phase ≠ .sentData) :
    s.transportStep k c = none := by
  cases hm : s.transportStep k c with
  | none => rfl
  | some t =>
    obtain ⟨_, _, -, ⟨hp, -⟩ | ⟨hp, -⟩⟩ := State.transportStep_some hm
    · exact absurd hp h
    · exact absurd hp h'

end Turn

/-- Settles O30: in each of its four phases the framer's turn is the transition of that phase. -/
theorem framerTransitions : Obligations.FramerTransitions := by
  intro s k c rest ht hc
  rw [step_framer ht hc]
  refine ⟨fun hp hne ho => ?_, fun hp => ?_, fun hp => ?_, fun hp => ?_⟩
  · simp [State.framerStep, hp, State.acquire, hne, ho, State.emit]
  · simp [State.framerStep, hp, State.select, State.emit]
  · simp [State.framerStep, hp, State.deselect, State.emit]
  · simp [State.framerStep, hp, State.release, State.emit]

/-- Settles O31: the transport's turn is the transition of the phase, on the head frame's byte. -/
theorem transportTakesBothBytes : Obligations.TransportTakesBothBytes := by
  intro s k c f fs rest ht hc hf
  rw [step_transport ht hc]
  refine ⟨fun hp => ?_, fun hp => ?_⟩
  · simp [State.transportStep, hp, State.sendData, hf, State.emit]
  · simp [State.transportStep, hp, State.sendAddr, hf, State.emit]

/-- Settles O32: in these cases the agent has no transition, and its turn is used up. -/
theorem disabledTurnsWait : Obligations.DisabledTurnsWait := by
  intro s k c rest hc
  refine ⟨fun ht hwait => ?_, fun ht hsel hdata => ?_⟩
  · have hnone : State.framerStep { s with turns := rest } k c = none := by
      obtain ⟨hidle, hno⟩ | hoffered := hwait
      · exact State.framerStep_of_idle_disabled hidle hno
      · exact State.framerStep_of_byteOffered hoffered
    rw [step_framer ht hc, hnone, Option.getD_none]
  · rw [step_transport ht hc, State.transportStep_of_noByteOffered hsel hdata, Option.getD_none]

/-- R84: the turn that selects an acquired core. -/
theorem step_select {s : State} {k : Nat} {c : CoreInst} {rest : List Agent} (hc : s.insts[k]? = some c)
    (hp : c.phase = .acquired) (ht : s.turns = .framer k :: rest) :
    step s = .next { s with
      turns := rest, insts := s.insts.set k { c with phase := .selected, csN := false },
      trace := s.trace ++ [.csLow k] } := by
  obtain ⟨-, hselect, -, -⟩ := framerTransitions s k c rest ht hc
  exact hselect hp

/-- R83, R84: the two turns that select a core; whatever its select line was, it is low after them. -/
theorem run_select {s : State} {k : Nat} {c : CoreInst} {f : Frame} {fs : List Frame} {rest : List Agent}
    (hc : s.insts[k]? = some c) (hf : c.pending = f :: fs) (hidle : c.phase = .idle) (ho : s.owner = none)
    (ht : s.turns = .framer k :: .framer k :: rest) :
    s.run 2 = .next (s.inFrame k c f .selected rest) := by
  have hk := (List.getElem?_eq_some_iff.mp hc).1
  obtain ⟨hacquire, -, -, -⟩ := framerTransitions s k c _ ht hc
  rw [State.run_succ _ (hacquire hidle (by simp [hf]) ho)]
  refine State.run_succ 0 ((step_select (List.getElem?_set_self hk) rfl rfl).trans ?_)
  simp [State.inFrame, Phase.selecting, Phase.progress, wire]

/-- Settles O33: two turns select the core, two take the bytes, two deselect it and release the bus. -/
theorem sixTurnsSendOneFrame : Obligations.SixTurnsSendOneFrame := by
  intro s k c f fs rest hc hf hidle ho ht
  have hk := (List.getElem?_eq_some_iff.mp hc).1
  simp only [frameTurns, List.cons_append, List.nil_append] at ht
  rw [State.run_add 4 (run_select hc hf hidle ho ht), State.run_succ _ (step_inFrame hk hf .sendData),
    State.run_succ _ (step_inFrame hk hf .sendAddr), State.run_succ _ (step_inFrame hk hf .deselect),
    State.run_succ _ (step_release hk hf ho), State.run_zero, ← hidle]
  rfl

end Sys2Proof.Machine
end

section
/-! PROOFS. The invariant of the framer and the bus at the start of a run, and what it says of the bus (spec R91, R92,
R107). -/

namespace Sys2Proof.Machine

/-- R16: a core before its first reset meets the invariant. -/
theorem CoreInst.unbuilt_inv : CoreInst.unbuilt.Inv where
  csLevel := rfl
  inFlight := fun hmid => absurd rfl hmid
  notLive := fun _ => rfl
  atMostFour := Nat.zero_le _
  legal := fun _ hf => absurd hf List.not_mem_nil

/-- Idle cores that meet the invariant, on a free bus that nothing has been sent on. -/
theorem State.inv_of_nothingSent {s : State} (hcores : ∀ c ∈ s.insts, c.Inv ∧ c.phase = .idle) (ho : s.owner = none)
    (ht : s.trace = []) : s.Inv where
  cores := fun c hc => (hcores c hc).1
  ownership := fun _ c hc =>
    iff_of_false (by simp [ho]) (absurd (hcores c (List.mem_of_getElem? hc)).2)
  ownerExists := fun _ hi => by simp [ho] at hi
  wholeFrames := by
    rw [ht, State.inProgress_of_free ho]
    rfl
  sentLegal := by
    rw [ht]
    exact fun _ hp => absurd hp List.not_mem_nil

/-- Settles O38: every core is one just constructed, or one not yet built. -/
theorem invariantAtResetAndPowerOn : Obligations.InvariantAtResetAndPowerOn := by
  refine ⟨State.inv_of_nothingSent (fun c hc => ?_) rfl rfl, fun n => State.inv_of_nothingSent (fun c hc => ?_) rfl rfl⟩
  · rw [State.reset_eq_constructed] at hc
    obtain rfl := List.mem_singleton.mp hc
    exact ⟨CoreInst.constructed_inv 0, rfl⟩
  · obtain rfl := List.eq_of_mem_replicate hc
    exact ⟨CoreInst.unbuilt_inv, rfl⟩

/-- R92: the phases in which the select line is low. -/
theorem Phase.selecting_iff (p : Phase) : p.selecting = true ↔ p = .selected ∨ p = .sentData ∨ p = .sentAddr := by
  cases p <;> decide

/-- R92: a core drives its select line low exactly in `selected`, `sentData` and `sentAddr`. -/
theorem CoreInst.Inv.csN_eq_false_iff {c : CoreInst} (hc : c.Inv) :
    c.csN = false ↔ c.phase = .selected ∨ c.phase = .sentData ∨ c.phase = .sentAddr := by
  rw [hc.csLevel, Bool.not_eq_false', Phase.selecting_iff]

/-- D20: a shared line is low while some core drives it low, a line of its own while its core does. -/
theorem State.selectLine_eq_false_iff (s : State) (i : Nat) :
    s.selectLine i = false ↔
      if Config.csShared then ∃ c ∈ s.insts, c.csN = false
      else ∃ c, s.insts[i]? = some c ∧ c.csN = false := by
  unfold State.selectLine
  split
  · simp
  · cases s.insts[i]? <;> simp

/-- R92: the select line follows the phases of the cores that drive it. -/
theorem State.Inv.selectLine_eq_false_iff {s : State} (hs : s.Inv) (i : Nat) :
    s.selectLine i = false ↔
      if Config.csShared then ∃ c ∈ s.insts, c.phase = .selected ∨ c.phase = .sentData ∨ c.phase = .sentAddr
      else ∃ c, s.insts[i]? = some c ∧ (c.phase = .selected ∨ c.phase = .sentData ∨ c.phase = .sentAddr) := by
  rw [State.selectLine_eq_false_iff]
  split
  · exact exists_congr fun c => and_congr_right fun hc => (hs.cores c hc).csN_eq_false_iff
  · exact exists_congr fun c => and_congr_right fun hc => (hs.core hc).csN_eq_false_iff

/-- Settles O40: two cores in mid-frame both own the bus, and the select line is the cores' own levels. -/
theorem oneCoreDrivesTheBus : Obligations.OneCoreDrivesTheBus := by
  intro s hs
  refine ⟨fun i j c d hc hd hcmid hdmid => ?_, fun i c hc hlow => ?_, hs.selectLine_eq_false_iff⟩
  · exact Option.some.inj ((hs.owner_of_midFrame hc hcmid).symm.trans (hs.owner_of_midFrame hd hdmid))
  · rw [hs.selectLine_eq_false_iff]
    split
    · exact ⟨c, List.mem_of_getElem? hc, hlow⟩
    · exact ⟨c, hc, hlow⟩

end Sys2Proof.Machine
end

section
/-! PROOFS. The framer against the atomic view (spec R95): there the first five moves of a frame leave everything as
it is, and the release sends the whole frame. -/

namespace Sys2Proof.Machine

section AtomicView
variable {s : State} {k : Nat} {c : CoreInst} {f : Frame} {fs : List Frame} {e : BusEvent} {p : Phase}

/-- R95: a core before its frame begins is idle, with its select line up. -/
def CoreInst.atomicView (c : CoreInst) : CoreInst := { c with phase := .idle, csN := true }

theorem State.atomicView_eq (s : State) :
    s.atomicView = { s with
      insts := s.insts.map CoreInst.atomicView
      owner := none
      trace := (framesOn s.trace).flatMap fun p => wire p.1 p.2 } := rfl

/-- The atomic view of the cores does not see a move that goes on in the head frame. -/
theorem State.map_atomicView_advance (hc : s.insts[k]? = some c) :
    (s.advance k c p e).insts.map CoreInst.atomicView = s.insts.map CoreInst.atomicView := by
  have hk : (s.insts.map CoreInst.atomicView)[k]? = some c.atomicView := by simp [hc]
  obtain ⟨hlt, hget⟩ := List.getElem?_eq_some_iff.mp hk
  calc (s.advance k c p e).insts.map CoreInst.atomicView
    _ = (s.insts.map CoreInst.atomicView).set k c.atomicView := List.map_set
    _ = s.insts.map CoreInst.atomicView := by rw [← hget, List.set_getElem_self]

/-- R95: a move that goes on in the head frame is no step of the atomic view. -/
theorem State.Inv.atomicView_advance (hs : s.Inv) (hc : s.insts[k]? = some c) (hf : c.pending = f :: fs)
    (hfree : c.phase = .idle → s.owner = none) (hn : c.phase.Next k f p e) :
    (s.advance k c p e).atomicView = s.atomicView := by
  rw [State.atomicView_eq, hs.framesOn_advance hc hf hfree hn, State.map_atomicView_advance hc]
  rfl

/-- R95: the atomic step sends the whole head frame of its core. -/
theorem State.frameStep_atomicView (s : State) (k : Nat) (hf : c.pending = f :: fs) :
    s.atomicView.frameStep k c.atomicView = some { s.atomicView with
      insts := s.atomicView.insts.set k { c.atomicView with pending := fs }
      trace := s.atomicView.trace ++ wire k f } := by
  simp [State.frameStep, CoreInst.atomicView, hf, State.atomicView]

/-- R95: the release of the head frame is the atomic step. -/
theorem State.Inv.atomicView_complete (hs : s.Inv) (hc : s.insts[k]? = some c) (hf : c.pending = f :: fs)
    (hp : c.phase = .deselected) :
    some (s.complete k c fs).atomicView = s.atomicView.frameStep k c.atomicView := by
  rw [State.frameStep_atomicView s k hf, State.atomicView_eq, hs.framesOn_complete hc hf hp]
  simp [State.complete, State.atomicView_eq, CoreInst.atomicView]

end AtomicView

/-- Settles O42: a turn waits, goes on in the head frame of its core, or completes that frame. -/
theorem framerRefinesTheAtomicView : Obligations.FramerRefinesTheAtomicView := by
  intro s t k c rest hs hc ht h
  have hused : State.Inv { s with turns := rest } := hs.congr rfl rfl rfl
  obtain rfl | hm := step_turn ht hc h
  · exact .inl rfl
  · obtain ⟨f, fs, hf, hfree, ⟨p, e, hn, rfl⟩ | ⟨hp, rfl⟩⟩ := hm.cases hused hc
    · exact .inl (hused.atomicView_advance hc hf hfree hn)
    · exact .inr (hused.atomicView_complete hc hf hp)

end Sys2Proof.Machine
end

section
/-! PROOFS. What stops a word or a run (spec R96 to R100, R102): the checks at the command port, a schedule that is used
up, and a core whose transport never takes the byte it offers. -/

namespace Sys2Proof

/-- R43: every command has a row in the opcode table. -/
theorem rowIndex_lt (i : Instr) : rowIndex i < opcodeRows.length := by
  cases i <;> simp [rowIndex, opcodeRows]

/-- R44: a word is reserved exactly if it matches no row of the opcode table. -/
theorem reserved_iff_no_row {w : CmdWord} :
    (∃ r, decode w = .error r) ↔ ∀ row ∈ opcodeRows, rowMatches w row = false := by
  constructor
  · rintro ⟨r, hr⟩ row hrow
    by_contra hmatch
    obtain ⟨i, hi⟩ := decode_of_rowMatches hrow (eq_true_of_ne_false hmatch)
    cases hr.symm.trans hi
  · intro hnone
    cases hd : decode w with
    | error r => exact ⟨r, rfl⟩
    | ok i =>
      obtain ⟨hrows, -, -⟩ := decodeFollowsTheOpcodeTable
      have hmatch := hrows w i hd
      rw [List.getD_eq_getElem _ _ (rowIndex_lt i), hnone _ (List.getElem_mem _)] at hmatch
      cases hmatch

end Sys2Proof

namespace Sys2Proof.Machine

section Refusals
variable {s : State} {c : CoreInst}

/-- R98: a core that is not live refuses every word, a reserved one too. -/
theorem State.command_notLive (w : CmdWord) (h : s.insts[s.port]? = some c) (hl : c.live = false) :
    s.command w = .refused .notConstructed := by
  unfold State.command
  split
  · rw [exec_eq_accept]
    exact State.gate_notLive h hl
  · exact State.gate_notLive h hl

/-- Everything a command can answer (R25, R98, R102). -/
theorem exec_cases (i : Instr) (s : State) :
    (s.insts[s.port]? = none ∧ exec i s = .refused .noSuchCore) ∨
    (∃ c, s.insts[s.port]? = some c ∧ c.live = false ∧ exec i s = .refused .notConstructed) ∨
    ∃ t, exec i s = .next t := by
  rw [exec_eq_accept]
  obtain hnone | ⟨c, hc, ⟨hl, hg⟩ | ⟨-, -, hg⟩ | ⟨-, hg⟩⟩ :=
    s.gate_cases fun c => .next (s.accepted (ruleOf i c))
  · exact .inl hnone
  · exact .inr (.inl ⟨c, hc, hl, hg⟩)
  · exact .inr (.inr ⟨_, hg⟩)
  · exact .inr (.inr ⟨_, hg⟩)

end Refusals

/-- Settles O26: the core's own check comes before the decoder's, and only a word that matches a row is decoded. -/
theorem wordsAreCheckedInOrder : Obligations.WordsAreCheckedInOrder := by
  intro s k w c h hc
  rw [h.step_command]
  refine ⟨fun hl => State.command_notLive w hc hl, fun hl hidle hempty r hr => ?_, reserved_iff_no_row⟩
  have hready : State.Ready { s.turnUsed with port := k } c := ⟨hc, hl, hidle, hempty⟩
  exact hready.command_error hr

/-- Settles O28, by everything a command can answer. -/
theorem commandsNeverFault : Obligations.CommandsNeverFault := by
  intro i s
  obtain ⟨hc, hx⟩ | ⟨c, hc, hl, hx⟩ | ⟨t, hx⟩ := exec_cases i s <;> rw [hx]
  · exact ⟨nofun, fun r hr => .inl ⟨hc, (Host.Outcome.refused.inj hr).symm⟩⟩
  · exact ⟨nofun, fun r hr => .inr ⟨c, hc, hl, (Host.Outcome.refused.inj hr).symm⟩⟩
  · exact ⟨nofun, nofun⟩

section NoTurn
variable {s : State}

/-- R90: a byte is offered exactly if some core is in `selected` or `sentData`. -/
theorem State.offersByte_iff :
    s.offersByte = true ↔ ∃ c ∈ s.insts, c.phase = .selected ∨ c.phase = .sentData := by
  simp [State.offersByte]

/-- Log 2: with no turn left the step is what it means that no agent moves any more. -/
theorem step_of_no_turn (h : s.turns = []) : step s = s.noTurn := by
  simp only [step, h]

end NoTurn

/-- Settles O37: the two clauses are the two cases of a byte offered and of none. -/
theorem noTurnIsStuckOrWaiting : Obligations.NoTurnIsStuckOrWaiting := by
  intro s ht
  rw [step_of_no_turn ht, State.noTurn]
  refine ⟨fun hoffered => if_pos (State.offersByte_iff.mpr hoffered), fun hnone => if_neg fun hoffers => ?_⟩
  obtain ⟨c, hc, hp⟩ := State.offersByte_iff.mp hoffers
  obtain ⟨hsel, hdata⟩ := hnone c hc
  exact hp.elim hsel hdata

section Stuck
variable {s t : State} {k : Nat} {c : CoreInst}

/-- Log 2: a step uses up one turn. -/
theorem step_turns (h : step s = .next t) : t.turns = s.turns.tail := by
  cases step_effect h with
  | waits | holds | accepts | resets => rfl
  | moves _ _ hm =>
    obtain ⟨d, o, e, rfl, -⟩ := hm.frame
    rfl

/-- What every step keeps holds after any number of steps. -/
theorem State.run_keeps {P : State → Prop} (hstep : ∀ s t, P s → step s = .next t → P t) {n : Nat} (hs : P s)
    (h : s.run n = .next t) : P t := by
  induction n generalizing s with
  | zero =>
    cases h
    exact hs
  | succ n ih =>
    obtain ⟨u, hu, hrun⟩ := State.run_succ_next h
    exact ih (hstep s u hs hu) hrun

/-- R100: core `k` is `c`, which offers a byte, and no turn of its transport is left. -/
structure State.Stuck (k : Nat) (c : CoreInst) (s : State) : Prop where
  inv : s.Inv
  core : s.insts[k]? = some c
  offers : c.phase = .selected ∨ c.phase = .sentData
  noTransport : ∀ a ∈ s.turns, a ≠ .transport k

theorem State.Stuck.midFrame (hs : s.Stuck k c) : c.phase ≠ .idle := by
  obtain hp | hp := hs.offers <;> simp [hp]

/-- Setting an idle core leaves the stuck one. -/
theorem State.Stuck.core_set_idle (hs : s.Stuck k c) {j : Nat} {b d : CoreInst} (hb : s.insts[j]? = some b)
    (hidle : b.phase = .idle) : (s.insts.set j d)[k]? = some c := by
  have hjk : j ≠ k := by
    rintro rfl
    obtain rfl : b = c := Option.some.inj (hb.symm.trans hs.core)
    exact hs.midFrame hidle
  rw [List.getElem?_set_ne hjk]
  exact hs.core

/-- R90, R100: the host's requests need an idle core, and without the transport's turn core `k` waits. -/
theorem State.Stuck.core_step (hs : s.Stuck k c) (h : step s = .next t) : t.insts[k]? = some c := by
  cases step_effect h with
  | waits | holds => exact hs.core
  | accepts _ _ hb hr =>
    obtain ⟨-, hidle, -⟩ := (CoreInst.cmdReady_iff _).mp hr
    exact hs.core_set_idle hb hidle
  | resets _ hb ha => exact hs.core_set_idle hb ((hs.inv.core hb).idle_of_resetAdmitted ha)
  | @moves j b _ hturn _ hm =>
    by_cases hjk : j = k
    · subst hjk
      have hframer := hturn.resolve_right fun hhead => hs.noTransport _ (List.mem_of_head? hhead) rfl
      obtain ⟨rest, ht⟩ := List.head?_eq_some_iff.mp hframer
      obtain ⟨hwaits, -⟩ := disabledTurnsWait s j c rest hs.core
      obtain rfl := Host.Outcome.next.inj ((hwaits ht (.inr hs.offers)).symm.trans h)
      exact hs.core
    · obtain ⟨d, o, e, rfl, -⟩ := hm.frame
      exact (List.getElem?_set_ne hjk).trans hs.core

/-- R100: a stuck core stays stuck. -/
theorem State.Stuck.step (hs : s.Stuck k c) (h : step s = .next t) : t.Stuck k c where
  inv := everyStepKeepsTheInvariant s t hs.inv h
  core := hs.core_step h
  offers := hs.offers
  noTransport := fun a ha => hs.noTransport a (List.mem_of_mem_tail (step_turns h ▸ ha))

end Stuck

/-- Settles O36: a stuck core stays stuck, and the invariant says of a state with one that it has the bus. -/
theorem stuckWithoutTheTransport : Obligations.StuckWithoutTheTransport := by
  intro n s t k c hs hc hp hno hrun
  have ht : t.Stuck k c := State.run_keeps (fun _ _ => State.Stuck.step) ⟨hs, hc, hp, hno⟩ hrun
  have howner := ht.inv.owner_of_midFrame ht.core ht.midFrame
  refine ⟨ht.core, howner, (ht.inv.core ht.core).csN_eq_false_iff.mpr (hp.imp_right .inl), fun j d hjk hd => ?_⟩
  by_contra hmid
  exact hjk (Option.some.inj ((ht.inv.owner_of_midFrame hd hmid).symm.trans howner))

end Sys2Proof.Machine
end

section
/-! PROOFS. The reset input (spec R107 to R109): presented to a core that is not mid-command it constructs the core
anew, and to one that is mid-command it is refused. -/

namespace Sys2Proof.Machine

section Reset
variable {s : State} {k : Nat} {cfg : Int} {c : CoreInst}

/-- R122: the step that presents a reset is the reset input of that core. -/
theorem State.HostPresents.step_reset (h : s.HostPresents k (.reset cfg)) :
    step s = State.resetCore { s.turnUsed with port := k } cfg := by
  obtain ⟨turns, items, ht, hh⟩ := h
  simp [step, ht, State.fire, State.present, hh, State.turnUsed]

/-- R107: a core that is not mid-command is constructed anew, and the request leaves the host's list. -/
theorem State.resetCore_admitted (h : s.insts[s.port]? = some c) (ha : c.resetAdmitted = true) :
    s.resetCore cfg =
      .next { s with insts := s.insts.set s.port (CoreInst.constructed cfg), host := s.host.tail } := by
  simp [State.resetCore, h, ha]

/-- R109: a reset of a core that is mid-command is refused. -/
theorem State.resetCore_refused (h : s.insts[s.port]? = some c) (ha : c.resetAdmitted = false) :
    s.resetCore cfg = .refused .resetWhileBusy := by
  simp [State.resetCore, h, ha]

/-- R109: a core that is live and mid-command admits no reset. -/
theorem CoreInst.resetAdmitted_eq_false (hl : c.live = true) (hbusy : c.phase ≠ .idle ∨ c.pending ≠ []) :
    c.resetAdmitted = false := by
  rw [← Bool.not_eq_true, c.resetAdmitted_iff]
  rintro (hdead | ⟨hidle, hempty⟩)
  · exact Bool.false_ne_true (hdead.symm.trans hl)
  · exact hbusy.elim (· hidle) (· hempty)

/-- R21: the chip address is the low three bits of the two's-complement form of the configuration. -/
theorem chipAddrOf_eq_ofInt (cfg : Int) : chipAddrOf cfg = BitVec.ofInt 3 cfg := by
  apply BitVec.eq_of_toNat_eq
  have h := chipAddrOf_toNat cfg
  rw [BitVec.toNat_ofInt]
  omega

/-- R22, R107: a core just constructed has both links off and zero crossing on, and every bit of its state byte is 0. -/
theorem packState_constructed (cfg : Int) : packState (CoreInst.constructed cfg) = 0x00#8 := by
  simp [packState, CoreInst.constructed, bit]

end Reset

/-- Settles O29: the step is the reset input of core `k`, which admits the reset exactly if the core is not
mid-command. -/
theorem resetConstructsTheCore : Obligations.ResetConstructsTheCore := by
  intro s k cfg c h hc
  rw [h.step_reset]
  refine ⟨fun hadm => ?_, fun hl hbusy => State.resetCore_refused hc (CoreInst.resetAdmitted_eq_false hl hbusy)⟩
  refine ⟨_, State.resetCore_admitted hc (c.resetAdmitted_iff.mpr hadm), ?_, rfl, rfl, rfl, rfl, fun d hd => ?_⟩
  · rw [← chipAddrOf_eq_ofInt]
    rfl
  · obtain ⟨hk, -⟩ := List.getElem?_eq_some_iff.mp hc
    have hnew : (s.insts.set k (CoreInst.constructed cfg))[k]? = some (CoreInst.constructed cfg) :=
      List.getElem?_set_self hk
    obtain rfl := Option.some.inj (hnew.symm.trans hd)
    exact packState_constructed cfg

end Sys2Proof.Machine
end
